-- ==== Sys2Proof/Word.lean ====
section
/-! DEFINITION. The widths of the numbers that cross the block's interface or index its tables
(spec/00_scope.md R13, R19; spec/30_encoding.md R70). -/

namespace Sys2Proof

/-- A byte, 0..255 (R19). -/
abbrev Byte := BitVec 8

/-- One text code unit, CU_WIDTH = 16 bits (R13, D8; notes/assumptions/7.md). -/
abbrev CodeUnit := BitVec 16

/-- A 6-bit value: a field of a group, an index of ENC_ROM, a digit value (R19). -/
abbrev Digit := BitVec 6

/-- A descriptor word, 32 bits (R70). -/
abbrev Word := BitVec 32

end Sys2Proof
end

