-- ==== Sys2Proof/Config.lean ====
section
/-! DEFINITION. The configuration record `Cfg`: the parameters the spec leaves open, fixed when the block
is built (spec/00_scope.md section 3, R18). The fixed constants, the defaults and the constraints stand in
Sys2Proof/Machine/Params.lean. -/

namespace Sys2Proof

/-- What an unrecognised code unit does (R16). -/
inductive UnknownPolicy where
  /-- It decodes to value 0. "This hardware is `ZERO`." -/
  | zero
  /-- It fails the command with FormatError (R118); not this hardware, carried as the switch R118 defines. -/
  | reject
deriving DecidableEq, Repr

/-- The open parameters of the block (R9, R10, R14, R15, R16). -/
structure Cfg where
  /-- SYM62: the alphabet character for value 62 (R9). -/
  sym62 : CodeUnit
  /-- SYM63: the alphabet character for value 63 (R9). -/
  sym63 : CodeUnit
  /-- ALT62: the second accepted input character for value 62 (R10). -/
  alt62 : CodeUnit
  /-- ALT63: the second accepted input character for value 63 (R10). -/
  alt63 : CodeUnit
  /-- LINE_BREAK: the code units inserted as one line break (R14). -/
  lineBreak : List CodeUnit
  /-- LB_AT_END: whether a line break follows the last line (R15). -/
  lbAtEnd : Bool
  /-- UNKNOWN_POLICY (R16). -/
  unknownPolicy : UnknownPolicy
deriving DecidableEq, Repr

end Sys2Proof
end

