-- ==== Sys2Proof/Machine/Params.lean ====
section
/-! DEFINITION. The constants the spec fixes, the defaults of the open parameters and the constraints on
any instantiation of them (spec/00_scope.md section 3). -/

namespace Sys2Proof

/-- `PAD`, the character `=` (R7). PRESUMED, unsafe: its number 0x3D is GK1 (notes/assumptions/8.md). -/
def pad : CodeUnit := 0x3D

/-- `LINE_LEN`: output characters per line in line-wrap mode (R8). -/
def lineLen : Nat := 76

/-- `MAX_LEN` = 2^(INT_WIDTH-1) - 1 (R12). DESIGN CHOICE D7, D20 (notes/assumptions/6.md). -/
def maxLen : Nat := 2147483647

/-- The values of OFFSET and LENGTH: INT_WIDTH = 32, two's complement (R11). DESIGN CHOICE D7
(notes/assumptions/6.md). -/
def intOk (x : Int) : Bool := decide (-2147483648 ≤ x) && decide (x ≤ 2147483647)

/-- A letter `A`–`Z`, `a`–`z` or a digit `0`–`9` (R9, R36). -/
abbrev isAlnum (c : CodeUnit) : Prop :=
  (0x41 ≤ c.toNat ∧ c.toNat ≤ 0x5A) ∨ (0x61 ≤ c.toNat ∧ c.toNat ≤ 0x7A) ∨ (0x30 ≤ c.toNat ∧ c.toNat ≤ 0x39)

/-- What R9 asks of each of the four symbols by itself. -/
abbrev symbolOk (c : CodeUnit) : Prop := c.toNat < 128 ∧ ¬ isAlnum c ∧ c ≠ pad

/-- R9, R10: the four symbols are in 0..127, no letter or digit, not `PAD`, and four different code units. -/
abbrev Cfg.SymbolsLegal (cfg : Cfg) : Prop :=
  symbolOk cfg.sym62 ∧ symbolOk cfg.sym63 ∧ symbolOk cfg.alt62 ∧ symbolOk cfg.alt63 ∧
  cfg.sym62 ≠ cfg.sym63 ∧ cfg.sym62 ≠ cfg.alt62 ∧ cfg.sym62 ≠ cfg.alt63 ∧
  cfg.sym63 ≠ cfg.alt62 ∧ cfg.sym63 ≠ cfg.alt63 ∧ cfg.alt62 ≠ cfg.alt63

/-- R14: every code unit of LINE_BREAK is in 0..127 and none is an `ENC_ROM` entry or `PAD`. -/
abbrev Cfg.LineBreakLegal (cfg : Cfg) : Prop :=
  ∀ c ∈ cfg.lineBreak, c.toNat < 128 ∧ ¬ isAlnum c ∧ c ≠ cfg.sym62 ∧ c ≠ cfg.sym63 ∧ c ≠ pad

/-- The constraints of R9, R10 and R14 on an instantiation of the parameters. -/
abbrev Cfg.Legal (cfg : Cfg) : Prop := cfg.SymbolsLegal ∧ cfg.LineBreakLegal

/-- The spec's defaults. DESIGN CHOICE, unsafe: D5, D6, D9, D10, D15 with GK2, GK3, GK4
(notes/assumptions/3.md, 4.md, 5.md). -/
def defaultCfg : Cfg :=
  { sym62 := 0x2B, sym63 := 0x2F, alt62 := 0x21, alt63 := 0x2A
    lineBreak := [0x000D, 0x000A], lbAtEnd := false, unknownPolicy := .zero }

end Sys2Proof
end

