-- ==== Sys2Proof/Syntax.lean ====
section
/-! DEFINITION. The command descriptor's four words and the five commands with their assembled operands
(spec/30_encoding.md R70, R71, R77, R79, R85). -/

namespace Sys2Proof

/-- The command descriptor: four 32-bit words (R70, R71). -/
structure Descriptor where
  w0 : Word
  w1 : Word
  w2 : Word
  w3 : Word
deriving DecidableEq, Repr

/-- The source operand: absent (`P` = 0), or present with `SRC_LEN` elements (R71, R72, R77). -/
inductive SrcOperand where
  | absent
  | present (srcLen : Nat)
deriving DecidableEq, Repr

/-- The line-break operand: "lineBreakMode: {none, insertEvery76}" (R85). -/
inductive LineBreakMode where
  | none
  | insertEvery76
deriving DecidableEq, Repr

/-- The five commands, one per row of spec/opcode_table.json (R79). OFFSET and LENGTH are mathematical
integers (R19), formed only by the two window formats (R77). -/
inductive Instr where
  /-- `ENC`, `encode(bytes)` (R104). -/
  | enc (src : SrcOperand)
  /-- `ENC.L`, `encode(bytes, lineBreakMode)` (R105). -/
  | encL (src : SrcOperand) (mode : LineBreakMode)
  /-- `ENC.WL`, `encode(bytes, offset, length, lineBreakMode)` (R106). -/
  | encWL (src : SrcOperand) (offset length : Int) (mode : LineBreakMode)
  /-- `DEC`, `decode(text)` (R127). -/
  | dec (src : SrcOperand)
  /-- `DEC.W`, `decode(text, offset, length)` (R128). -/
  | decW (src : SrcOperand) (offset length : Int)
deriving DecidableEq, Repr

/-- Why a descriptor is reserved: the conditions of R80, each under its own name. Safe: the machine
refuses such a command (R80, R155). -/
inductive Reserved where
  /-- `CMD[7:4]` is not 0. -/
  | cmdHigh
  /-- `F` is 5, 6 or 7. -/
  | form
  /-- `L` = 1 with `F` = 0, 3 or 4. -/
  | modeBit
  /-- `W0[31:9]` is not 0. -/
  | w0High
  /-- `W3[31]` is not 0. -/
  | w3High
  /-- `P` = 0 and `W3` is not 0. -/
  | absentWithLength
  /-- Format S with `W1` or `W2` not 0. -/
  | windowWords
deriving DecidableEq, Repr

end Sys2Proof
end

