-- ==== Sys2Proof/Machine/State.lean ====
section
/-! DEFINITION. The state. The block itself has no mutable architectural state (spec/10_state.md R32 to R34); a
State holds what one step reads and writes: the configuration, what the host has handed over, and the
transactions completed so far (R31, R45; notes/assumptions/1.md, 2.md). -/

namespace Sys2Proof.Machine

/-- The source sequence of a command: absent, or bytes for an encode command (`SRC.B`), or code units for a
decode command (`SRC.T`) (10_state.md R35, R40; 30_encoding.md R72, R73). -/
inductive Source where
  | absent
  | bytes (bs : List Byte)
  | text (cs : List CodeUnit)
deriving DecidableEq, Repr

/-- A command: the descriptor words together with the source sequence (30_encoding.md R70). -/
structure Command where
  words : Descriptor
  source : Source
deriving DecidableEq, Repr

/-- What the host can hand to the block: a command (R70) or an assertion of the reset input
(70_reset_and_hazards.md R160). -/
inductive Input where
  | command (c : Command)
  | reset
deriving DecidableEq, Repr

/-- The output sequence of a response: none when the status is not `OK` (30_encoding.md R76), code units
(`DST.T`) for an encode command, bytes (`DST.B`) for a decode command (10_state.md R35, R41). -/
inductive Output where
  | none
  | text (cs : List CodeUnit)
  | bytes (bs : List Byte)
deriving DecidableEq, Repr

/-- A response: the words `V0`, `V1` together with the output sequence (30_encoding.md R70, R75, R76). -/
structure Response where
  v0 : Word
  v1 : Word
  output : Output
deriving DecidableEq, Repr

/-- "one command together with its one response" (00_scope.md R27). -/
structure Transaction where
  command : Command
  response : Response
deriving DecidableEq, Repr

/-- The two error kinds (60_exceptions.md R140). -/
inductive ErrorKind where
  | invalidArgument
  | formatError
deriving DecidableEq, Repr

/-- The state of the model: everything one step reads and writes. -/
structure State where
  /-- The parameters of the block, fixed when it is built (00_scope.md R18): no step changes them. -/
  cfg : Cfg
  /-- What the host has handed over and the block has not yet taken, oldest first (20_memory.md R61). -/
  inputs : List Input
  /-- The transactions completed so far, oldest first. -/
  completed : List Transaction
deriving DecidableEq, Repr

/-- The machine's faults: none. "*Fault*, *stuck* and *hang* do not occur in this block" (00_scope.md R26;
notes/assumptions/25.md). Safe: there is nothing to raise. -/
inductive Fault where
deriving DecidableEq, Repr

/-- Why a step is refused: "the spec gives the input no meaning" (00_scope.md R26). -/
inductive Refusal where
  /-- Raised by the dispatch for an instruction the model has not reached; no arm does. Safe. -/
  | notModelled (mnemonic : String)
  /-- Raised by the step for a command whose descriptor is reserved (30_encoding.md R80, 60_exceptions.md R155,
  U1). Safe: the model stops. -/
  | reserved (why : Reserved)
  /-- Raised by a meaning whose output would be longer than MAX_LEN (60_exceptions.md R154, U5). Safe. -/
  | outputTooLong
  /-- Raised by a meaning when the source sequence handed over is not the one the descriptor declares: its
  presence, its length or its kind of element (70_reset_and_hazards.md R164; notes/assumptions/15.md). Safe. -/
  | sourceMismatch
  /-- Raised by a meaning asked to run in a state with no command at the head of the inputs; no step does
  that (notes/assumptions/22.md). Safe. -/
  | noCommand
deriving DecidableEq, Repr

/-- Right after reset: the block has nothing to set (10_state.md R44) and is ready to accept a command
(70_reset_and_hazards.md R162). DESIGN CHOICE: no input handed over, no transaction recorded, and the spec's
default parameters (notes/assumptions/1.md, 3.md, 4.md, 5.md). -/
def State.reset : State := { cfg := defaultCfg, inputs := [], completed := [] }

end Sys2Proof.Machine
end

