-- ==== Sys2Proof/Machine/Flags.lean ====
section
/-! DEFINITION. The block has no flags (spec/10_state.md R32: "zero flags, zero condition codes"; every command:
"Flags written: none"). What reports an outcome is the STATUS field of the response descriptor
(spec/30_encoding.md R75), and this file holds its words. -/

namespace Sys2Proof.Machine

/-- `STATUS`: 0 `OK`, 1 `InvalidArgument`, 2 `FormatError`; 3 is never produced (R75). -/
def statusCode : Option ErrorKind → Nat
  | none => 0
  | some .invalidArgument => 1
  | some .formatError => 2

/-- `V0`: STATUS in bits 1:0, the rest always 0 (R75). -/
def statusWord (status : Option ErrorKind) : Word := BitVec.ofNat 32 (statusCode status)

/-- `V1`: DST_LEN in bits 30:0, bit 31 always 0; the length is at most MAX_LEN wherever this is used (R75). -/
def lengthWord (dstLen : Nat) : Word := BitVec.ofNat 32 dstLen

end Sys2Proof.Machine
end

