-- ==== Sys2Proof/Machine/Operands.lean ====
section
/-! DEFINITION. Operand assembly, operand validation, and how a command reaches its source sequence
(spec/30_encoding.md R77, R78; spec/20_memory.md R53, R55, R58). -/

namespace Sys2Proof.Machine

/-- `ArgsValid(present, SRC_LEN, OFFSET, LENGTH)`, on mathematical integers, no wrap (R78). -/
def argsValid : SrcOperand → Int → Int → Bool
  | .absent, _, _ => false
  | .present srcLen, offset, length =>
    decide (0 ≤ offset) && decide (0 ≤ length) && decide (offset + length ≤ srcLen)

/-- `MemRead(SRC, i)`: element `i` of the source sequence (00_scope.md R24, 20_memory.md R55). -/
def memRead {α : Type} (src : List α) (i : Nat) : Option α := src[i]?

/-- `s[i..j)`: the elements with index `i` up to but not including `j` (00_scope.md R23). -/
def slice {α : Type} (s : List α) (i j : Nat) : List α := (s.drop i).take (j - i)

/-- The window of validated operands: source elements `OFFSET .. OFFSET + LENGTH - 1` (20_memory.md R58). The
units see nothing of the source but this (R56). -/
def window {α : Type} (src : List α) (offset length : Int) : List α :=
  slice src offset.toNat (offset.toNat + length.toNat)

/-- Runs `k` on the source bytes of an encode command: none for an absent source; for a present one the byte
sequence handed over, which must have the SRC_LEN elements the descriptor declares (R73, R164). -/
def withBytes (src : SrcOperand) (source : Source) (k : List Byte → Except Refusal Response) :
    Except Refusal Response :=
  match src, source with
  | .absent, .absent => k []
  | .present srcLen, .bytes bs => if bs.length = srcLen then k bs else .error .sourceMismatch
  | _, _ => .error .sourceMismatch

/-- The same for the source text of a decode command (R73, R164). -/
def withText (src : SrcOperand) (source : Source) (k : List CodeUnit → Except Refusal Response) :
    Except Refusal Response :=
  match src, source with
  | .absent, .absent => k []
  | .present srcLen, .text cs => if cs.length = srcLen then k cs else .error .sourceMismatch
  | _, _ => .error .sourceMismatch

end Sys2Proof.Machine
end

