-- ==== Sys2Proof/Machine/Ops.lean ====
section
/-! DEFINITION. The operations every meaning is made of: the two kinds of response (success and error, the
block's exception: spec/60_exceptions.md R148) and the transaction around them (spec/10_state.md R31). -/

namespace Sys2Proof.Machine

/-- `DST_LEN`: the number of elements of an output sequence (30_encoding.md R75). -/
def Output.length : Output → Nat
  | .none => 0
  | .text cs => cs.length
  | .bytes bs => bs.length

/-- The response of a success: STATUS `OK`, DST_LEN and the whole output (30_encoding.md R75, R76). -/
def okResponse (out : Output) : Response :=
  { v0 := statusWord none, v1 := lengthWord out.length, output := out }

/-- The response of an error: its STATUS, DST_LEN = 0 and no output sequence (60_exceptions.md R148, R149). -/
def errorResponse (e : ErrorKind) : Response :=
  { v0 := statusWord (some e), v1 := lengthWord 0, output := .none }

/-- Taking an exception: "`raise InvalidArgument` and `raise FormatError` end the command at once"
(00_scope.md R25). The response carries the kind and nothing else; nothing is saved, no mode or mask
changes and control goes nowhere (60_exceptions.md R144, R148). There is no return from it: "There is no
return-from-trap command and nothing to restore" (R150). -/
def raise (e : ErrorKind) : Except Refusal Response := .ok (errorResponse e)

/-- Delivery of an output. One longer than MAX_LEN is outside the spec and refused (60_exceptions.md R154). -/
def deliver (out : Output) : Except Refusal Response :=
  if out.length ≤ maxLen then .ok (okResponse out) else .error .outputTooLong

/-- The response of a unit's result: the error it raised or the output it returned. -/
def reply : Except ErrorKind Output → Except Refusal Response
  | .error e => raise e
  | .ok out => deliver out

/-- The state after a command's response is delivered: the command leaves the inputs and stands, unchanged,
beside its response at the end of the completed transactions; nothing else changes (10_state.md R40, R45). -/
def State.complete (s : State) (c : Command) (rest : List Input) (r : Response) : State :=
  { s with inputs := rest, completed := s.completed ++ [⟨c, r⟩] }

/-- One transaction (10_state.md R31): the command at the head of the inputs is answered by `answer`, a
function of the configuration and its source sequence, in one atomic step (20_memory.md R57). -/
def transact (answer : Cfg → Source → Except Refusal Response) (s : State) :
    Host.Outcome State Fault Refusal :=
  match s.inputs with
  | .command c :: rest =>
    match answer s.cfg c.source with
    | .ok r => .next (s.complete c rest r)
    | .error why => .refused why
  | _ => .refused .noCommand

/-- The reset input: "no architectural effect" (70_reset_and_hazards.md R160); it is only taken from the inputs.
It stands among them, so it falls between transactions, never inside one (R161). -/
def State.absorbReset (s : State) (rest : List Input) : State := { s with inputs := rest }

end Sys2Proof.Machine
end

