-- ==== Sys2Proof/Machine/Tables.lean ====
section
/-! DEFINITION. The two constant tables (spec/10_state.md R36 to R39, R43) and the decoder's use of its table
(spec/41_decode.md R117). -/

namespace Sys2Proof.Machine

/-- `ENC_ROM`, 64 entries (R36). PRESUMED, unsafe: the character numbers are GK1 (notes/assumptions/8.md). -/
def encRom (cfg : Cfg) (i : Digit) : CodeUnit :=
  if i.toNat ≤ 25 then BitVec.ofNat 16 (0x41 + i.toNat)
  else if i.toNat ≤ 51 then BitVec.ofNat 16 (0x61 + (i.toNat - 26))
  else if i.toNat ≤ 61 then BitVec.ofNat 16 (0x30 + (i.toNat - 52))
  else if i.toNat = 62 then cfg.sym62
  else cfg.sym63

/-- The 64 digit values in rising order. -/
def digits : List Digit := (List.range 64).map (BitVec.ofNat 6)

/-- The digit value `v` with `c = ENC_ROM[v]`, if there is one (R37; the table is injective, R36). -/
def alphabetIndex (cfg : Cfg) (c : CodeUnit) : Option Digit := digits.find? fun v => encRom cfg v == c

/-- The table entry of the code unit `c`: its alphabet index, else 62 for ALT62, 63 for ALT63, else 0 (R37). -/
def tableEntry (cfg : Cfg) (c : CodeUnit) : Digit :=
  match alphabetIndex cfg c with
  | some v => v
  | none => if c = cfg.alt62 then 62 else if c = cfg.alt63 then 63 else 0

/-- `DEC_ROM`, 128 entries, one per code unit 0..127 (00_scope.md R17, R37). -/
def decRom (cfg : Cfg) (index : BitVec 7) : Digit := tableEntry cfg (index.setWidth 16)

/-- `DecVal(c) = if c < 128 then DEC_ROM[c] else 0` (R117). -/
def decVal (cfg : Cfg) (c : CodeUnit) : Digit :=
  if c.toNat < 128 then decRom cfg (c.setWidth 7) else 0

/-- `IsDigit(c)` (R117). -/
def isDigit (cfg : Cfg) (c : CodeUnit) : Bool :=
  decide (c.toNat < 128) && ((alphabetIndex cfg c).isSome || c == cfg.alt62 || c == cfg.alt63)

end Sys2Proof.Machine
end

