-- ==== Sys2Proof/Machine/DecodeUnit.lean ====
section
/-! DEFINITION. The decoder unit: `DecodeCore` (spec/41_decode.md R111) and the meanings of `DEC` and `DEC.W`
(R127, R128). -/

namespace Sys2Proof.Machine

/-- `byte0 = ((d0 << 2) | (d1 >> 4)) & 0xFF` (R111, R120): shifts on unbounded naturals, then the mask. -/
def byte0 (d0 d1 : Digit) : Byte := BitVec.ofNat 8 (d0.toNat <<< 2 ||| d1.toNat >>> 4)

/-- `byte1 = ((d1 << 4) | (d2 >> 2)) & 0xFF` (R111, R120). -/
def byte1 (d1 d2 : Digit) : Byte := BitVec.ofNat 8 (d1.toNat <<< 4 ||| d2.toNat >>> 2)

/-- `byte2 = ((d2 << 6) | d3) & 0xFF` (R111, R120). -/
def byte2 (d2 d3 : Digit) : Byte := BitVec.ofNat 8 (d2.toNat <<< 6 ||| d3.toNat)

/-- The three bytes of a quartet of code units, before truncation (R119, R120). -/
def quartetBytes (cfg : Cfg) (c0 c1 c2 c3 : CodeUnit) : List Byte :=
  [byte0 (decVal cfg c0) (decVal cfg c1), byte1 (decVal cfg c1) (decVal cfg c2),
    byte2 (decVal cfg c2) (decVal cfg c3)]

/-- The trailing pads `p`: the run of `PAD` at the end of the window, capped at 2 (R115). -/
def trailingPads (w : List CodeUnit) : Nat :=
  if w[w.length - 1]? ≠ some pad then 0 else if w[w.length - 2]? ≠ some pad then 1 else 2

/-- The window elements at an index below `LENGTH - p` (R116, R118). -/
def digitPart (w : List CodeUnit) : List CodeUnit := w.take (w.length - trailingPads w)

/-- Unpacking: each quartet yields its 3 bytes, the last one the first `3 - p` of them (R119 to R121). The last arm
is for a rest that is no quartet, which no window whose length is a multiple of 4 has. -/
def decodeQuartets (cfg : Cfg) (p : Nat) : List CodeUnit → List Byte
  | [c0, c1, c2, c3] => (quartetBytes cfg c0 c1 c2 c3).take (3 - p)
  | c0 :: c1 :: c2 :: c3 :: rest => quartetBytes cfg c0 c1 c2 c3 ++ decodeQuartets cfg p rest
  | _ => []

/-- Steps 4 to 9 of `DecodeCore` on a window of at least one quartet (R111). -/
def decodeWindow (cfg : Cfg) (w : List CodeUnit) : Except ErrorKind (List Byte) :=
  if pad ∈ digitPart w then .error .formatError
  else if cfg.unknownPolicy = .reject ∧ (digitPart w).any (fun c => !isDigit cfg c) = true then
    .error .formatError
  else .ok (decodeQuartets cfg (trailingPads w) w)

/-- `DecodeCore(present, SRC_LEN, SRC, OFFSET, LENGTH)` (R111). -/
def decodeCore (cfg : Cfg) (src : SrcOperand) (text : List CodeUnit) (offset length : Int) :
    Except ErrorKind (List Byte) :=
  if argsValid src offset length = false then .error .invalidArgument
  else if length % 4 ≠ 0 then .error .formatError
  else if length = 0 then .ok []
  else decodeWindow cfg (window text offset length)

/-- The response of the decoder unit to a window. -/
def decodeReply (cfg : Cfg) (src : SrcOperand) (text : List CodeUnit) (offset length : Int) :
    Except Refusal Response :=
  reply ((decodeCore cfg src text offset length).map .bytes)

/-- `DEC` (R127): the whole text; an absent text is InvalidArgument. -/
def execDec (src : SrcOperand) (s : State) : Host.Outcome State Fault Refusal :=
  transact (fun cfg source => withText src source fun text =>
    match src with
    | .absent => raise .invalidArgument
    | .present srcLen => decodeReply cfg src text 0 srcLen) s

/-- `DEC.W` (R128): a window. -/
def execDecW (src : SrcOperand) (offset length : Int) (s : State) : Host.Outcome State Fault Refusal :=
  transact (fun cfg source => withText src source fun text => decodeReply cfg src text offset length) s

end Sys2Proof.Machine
end

