-- ==== Sys2Proof/Machine/EncodeUnit.lean ====
section
/-! DEFINITION. The encoder unit: `EncodeCore` (spec/40_encode.md R91) and the meanings of `ENC`, `ENC.L` and
`ENC.WL` (R104 to R106). -/

namespace Sys2Proof.Machine

/-- First field: `b0[7:2]` (R91, R94). -/
def field0 (b0 : Byte) : Digit := b0.extractLsb' 2 6

/-- Second field: `b0[1:0] @ b1[7:4]` (R91, R94). -/
def field1 (b0 b1 : Byte) : Digit := b0.extractLsb' 0 2 ++ b1.extractLsb' 4 4

/-- Third field: `b1[3:0] @ b2[7:6]` (R91, R94). -/
def field2 (b1 b2 : Byte) : Digit := b1.extractLsb' 0 4 ++ b2.extractLsb' 6 2

/-- Fourth field: `b2[5:0]` (R91, R94). -/
def field3 (b2 : Byte) : Digit := b2.extractLsb' 0 6

/-- The body: the quartets of the groups of 3 bytes, in order (R93 to R96). The last group may be short by 1 or
2 bytes: its missing bytes are 0 and the characters they leave unused are `PAD` (R95). -/
def encodeBody (cfg : Cfg) : List Byte → List CodeUnit
  | [] => []
  | [b0] => [encRom cfg (field0 b0), encRom cfg (field1 b0 0), pad, pad]
  | [b0, b1] => [encRom cfg (field0 b0), encRom cfg (field1 b0 b1), encRom cfg (field2 b1 0), pad]
  | b0 :: b1 :: b2 :: rest =>
    encRom cfg (field0 b0) :: encRom cfg (field1 b0 b1) :: encRom cfg (field2 b1 b2) :: encRom cfg (field3 b2)
      :: encodeBody cfg rest

/-- Line `j` of `lines` lines of a body, with the break that follows it (R99). -/
def wrapLine (cfg : Cfg) (body : List CodeUnit) (lines j : Nat) : List CodeUnit :=
  slice body (lineLen * j) (min (lineLen * (j + 1)) body.length) ++
    (if j + 1 < lines ∨ cfg.lbAtEnd = true then cfg.lineBreak else [])

/-- `LineWrap(body)`: `NL = ceil(M / LINE_LEN)` lines (R99). -/
def lineWrap (cfg : Cfg) (body : List CodeUnit) : List CodeUnit :=
  let lines := (body.length + (lineLen - 1)) / lineLen
  (List.range lines).flatMap (wrapLine cfg body lines)

/-- Step 5 of `EncodeCore`: the finished body, wrapped on request (R91). -/
def applyMode (cfg : Cfg) (body : List CodeUnit) : LineBreakMode → List CodeUnit
  | .none => body
  | .insertEvery76 => lineWrap cfg body

/-- `EncodeCore(present, SRC_LEN, SRC, OFFSET, LENGTH, lb)` (R91). -/
def encodeCore (cfg : Cfg) (src : SrcOperand) (bytes : List Byte) (offset length : Int) (mode : LineBreakMode) :
    Except ErrorKind (List CodeUnit) :=
  if argsValid src offset length = false then .error .invalidArgument
  else if length = 0 then .ok []
  else .ok (applyMode cfg (encodeBody cfg (window bytes offset length)) mode)

/-- The response of the encoder unit to a window. -/
def encodeReply (cfg : Cfg) (src : SrcOperand) (bytes : List Byte) (offset length : Int) (mode : LineBreakMode) :
    Except Refusal Response :=
  reply ((encodeCore cfg src bytes offset length mode).map .text)

/-- `ENC` (R104): the whole sequence, no line breaks; an absent sequence is InvalidArgument. -/
def execEnc (src : SrcOperand) (s : State) : Host.Outcome State Fault Refusal :=
  transact (fun cfg source => withBytes src source fun bytes =>
    match src with
    | .absent => raise .invalidArgument
    | .present srcLen => encodeReply cfg src bytes 0 srcLen .none) s

/-- `ENC.L` (R105): the whole sequence, the line-break mode of the `L` bit. -/
def execEncL (src : SrcOperand) (mode : LineBreakMode) (s : State) : Host.Outcome State Fault Refusal :=
  transact (fun cfg source => withBytes src source fun bytes =>
    match src with
    | .absent => raise .invalidArgument
    | .present srcLen => encodeReply cfg src bytes 0 srcLen mode) s

/-- `ENC.WL` (R106): a window, the line-break mode of the `L` bit. -/
def execEncWL (src : SrcOperand) (offset length : Int) (mode : LineBreakMode) (s : State) :
    Host.Outcome State Fault Refusal :=
  transact (fun cfg source => withBytes src source fun bytes =>
    encodeReply cfg src bytes offset length mode) s

end Sys2Proof.Machine
end

