-- ==== Sys2Proof/Machine/Dispatch.lean ====
section
/-! DEFINITION. One arm per command (spec/30_encoding.md R79). -/

namespace Sys2Proof.Machine

def exec (i : Instr) (s : State) : Host.Outcome State Fault Refusal :=
  match i with
  | .enc src => Sys2Proof.Machine.execEnc src s
  | .encL src mode => Sys2Proof.Machine.execEncL src mode s
  | .encWL src offset length mode => Sys2Proof.Machine.execEncWL src offset length mode s
  | .dec src => Sys2Proof.Machine.execDec src s
  | .decW src offset length => Sys2Proof.Machine.execDecW src offset length s

end Sys2Proof.Machine
end

