-- ==== Sys2Proof/WellFormed.lean ====
section
/-! DEFINITION. The commands a descriptor can express: SRC_LEN in 0..MAX_LEN (spec/00_scope.md R12), OFFSET
and LENGTH in the range of R11. -/

namespace Sys2Proof

/-- A present source has at most MAX_LEN elements (R12, R71). -/
def SrcOperand.wf : SrcOperand → Bool
  | .absent => true
  | .present n => decide (n ≤ maxLen)

/-- Every operand is in the range its descriptor field expresses (R11, R12, R71). -/
def Instr.wf : Instr → Bool
  | .enc src => src.wf
  | .encL src _ => src.wf
  | .encWL src offset length _ => src.wf && intOk offset && intOk length
  | .dec src => src.wf
  | .decW src offset length => src.wf && intOk offset && intOk length

end Sys2Proof
end

