-- ==== Sys2Proof/Decode.lean ====
section
/-! DEFINITION. Decoding of a descriptor, total, reserved descriptors rejected by name, and the encoder
(spec/30_encoding.md R71, R74, R77, R79, R80, R83, R86). -/

namespace Sys2Proof

/-- `v[hi:lo]`: the natural number made of bits `hi` down to `lo` of `v` (00_scope.md R20). -/
def bits {n : Nat} (v : BitVec n) (hi lo : Nat) : Nat := v.toNat / 2 ^ lo % 2 ^ (hi - lo + 1)

/-- `present = (P = 1)`, `SRC_LEN = W3[30:0]` (R71, R77). -/
def Descriptor.src (d : Descriptor) : SrcOperand :=
  if bits d.w0 8 8 = 1 then .present (bits d.w3 30 0) else .absent

/-- `L`, `CMD[0]`: 0 is `none`, 1 is `insertEvery76` (R74, R79). -/
def Descriptor.mode (d : Descriptor) : LineBreakMode :=
  if bits d.w0 0 0 = 1 then .insertEvery76 else .none

/-- A command of format S: `W1` and `W2` must be 0 (R79, R80). -/
def shortFormat (d : Descriptor) (i : Instr) : Except Reserved Instr :=
  if d.w1 = 0 ∧ d.w2 = 0 then .ok i else .error .windowWords

/-- A form in which `L` must be 0 (R80). -/
def withoutMode (d : Descriptor) (r : Except Reserved Instr) : Except Reserved Instr :=
  if bits d.w0 0 0 = 0 then r else .error .modeBit

/-- `F` selects exactly one row of R79 and R77 forms the operands; `F` = 5, 6, 7 is reserved (R80, R86). -/
def decodeForm (d : Descriptor) : Except Reserved Instr :=
  match bits d.w0 3 1 with
  | 0 => withoutMode d (shortFormat d (.enc d.src))
  | 1 => shortFormat d (.encL d.src d.mode)
  | 2 => .ok (.encWL d.src d.w1.toInt d.w2.toInt d.mode)
  | 3 => withoutMode d (shortFormat d (.dec d.src))
  | 4 => withoutMode d (.ok (.decW d.src d.w1.toInt d.w2.toInt))
  | _ => .error .form

/-- Decoding (R86): the reserved conditions of R80, then the row of R79. Which name a descriptor with several
reserved conditions is rejected under is the model's choice (notes/assumptions/10.md). -/
def decode (d : Descriptor) : Except Reserved Instr :=
  if bits d.w0 7 4 ≠ 0 then .error .cmdHigh
  else if bits d.w0 31 9 ≠ 0 then .error .w0High
  else if bits d.w3 31 31 ≠ 0 then .error .w3High
  else if bits d.w0 8 8 = 0 ∧ d.w3 ≠ 0 then .error .absentWithLength
  else decodeForm d

/-- `L` of a mode (R79). -/
def LineBreakMode.bit : LineBreakMode → Nat
  | .none => 0
  | .insertEvery76 => 1

/-- The source operand of a command. -/
def Instr.src : Instr → SrcOperand
  | .enc src => src
  | .encL src _ => src
  | .encWL src _ _ _ => src
  | .dec src => src
  | .decW src _ _ => src

/-- `CMD` of a written form (R83). -/
def Instr.cmd : Instr → Nat
  | .enc _ => 0x00
  | .encL _ mode => 0x02 + mode.bit
  | .encWL _ _ _ mode => 0x04 + mode.bit
  | .dec _ => 0x06
  | .decW _ _ _ => 0x08

/-- `P` of a source operand (R72, R83). -/
def SrcOperand.presentBit : SrcOperand → Nat
  | .absent => 0
  | .present _ => 1

/-- `W3`: the length of a present source, 0 for an absent one (R71, R83). -/
def SrcOperand.lengthWord : SrcOperand → Word
  | .absent => 0
  | .present n => BitVec.ofNat 32 n

/-- `W1` and `W2`: two's complement OFFSET and LENGTH of format W, 0 in format S (R83). -/
def Instr.windowWords : Instr → Word × Word
  | .enc _ => (0, 0)
  | .encL _ _ => (0, 0)
  | .encWL _ offset length _ => (BitVec.ofInt 32 offset, BitVec.ofInt 32 length)
  | .dec _ => (0, 0)
  | .decW _ offset length => (BitVec.ofInt 32 offset, BitVec.ofInt 32 length)

/-- Assembly of the written form into a descriptor: `W0 = CMD + 256 * P` (R83). -/
def encode (i : Instr) : Descriptor :=
  { w0 := BitVec.ofNat 32 (i.cmd + 256 * i.src.presentBit)
    w1 := i.windowWords.1
    w2 := i.windowWords.2
    w3 := i.src.lengthWord }

/-- One row of spec/opcode_table.json: `match` and `mask` over the 8-bit `CMD` (R79). -/
structure OpcodeRow where
  mnemonic : String
  pattern : BitVec 8
  mask : BitVec 8
deriving DecidableEq, Repr

/-- The opcode table's five rows (R79). -/
def opcodeTable : List OpcodeRow :=
  [⟨"ENC", 0x00, 0xFF⟩, ⟨"ENC.L", 0x02, 0xFE⟩, ⟨"ENC.WL", 0x04, 0xFE⟩, ⟨"DEC", 0x06, 0xFF⟩, ⟨"DEC.W", 0x08, 0xFF⟩]

/-- "a command word `c` belongs to the row when `c AND mask = match`" (R79). -/
def OpcodeRow.matches (r : OpcodeRow) (c : BitVec 8) : Bool := c &&& r.mask == r.pattern

/-- The mnemonic of a command, as spec/opcode_table.json spells it. -/
def Instr.mnemonic : Instr → String
  | .enc _ => "ENC"
  | .encL _ _ => "ENC.L"
  | .encWL _ _ _ _ => "ENC.WL"
  | .dec _ => "DEC"
  | .decW _ _ _ => "DEC.W"

/-- The descriptor whose bits 0..127 are the low `nbits` bits of `w`: bit 0 is bit 0 of `W0`, bit 32 is bit 0 of
`W1`, and so on; the bits above `nbits` are 0. DESIGN CHOICE, safe: the order of the four words in this one number, which
20_memory.md R52 leaves to the host (notes/assumptions/27.md). -/
def tableDescriptor (nbits w : Nat) : Descriptor :=
  { w0 := BitVec.ofNat 32 (w % 2 ^ nbits)
    w1 := BitVec.ofNat 32 (w % 2 ^ nbits / 2 ^ 32)
    w2 := BitVec.ofNat 32 (w % 2 ^ nbits / 2 ^ 64)
    w3 := BitVec.ofNat 32 (w % 2 ^ nbits / 2 ^ 96) }

/-- The command the decoder reads from a descriptor numbered as spec/opcode_table.json numbers it. -/
def decodeTableWord (nbits w : Nat) : Option Instr :=
  match decode (tableDescriptor nbits w) with
  | .ok i => some i
  | .error _ => none

end Sys2Proof
end

