-- ==== Sys2Proof/Machine/Fetch.lean ====
section
/-! DEFINITION. How a step comes to its command. The block has no program counter and fetches nothing
(spec/10_state.md R33): it takes the oldest input the host has handed over. -/

namespace Sys2Proof.Machine

/-- Takes the oldest input and runs it. A reserved descriptor is refused (30_encoding.md R80); the reset input has
no effect (70_reset_and_hazards.md R160). DESIGN CHOICE, safe: with no input the block stays as it is, ready
(notes/assumptions/12.md). -/
def takeInput (run : Instr → State → Host.Outcome State Fault Refusal) (s : State) :
    Host.Outcome State Fault Refusal :=
  match s.inputs with
  | [] => .next s
  | .reset :: rest => .next (s.absorbReset rest)
  | .command c :: _ =>
    match decode c.words with
    | .ok i => run i s
    | .error why => .refused (.reserved why)

/-- A source sequence as the operands of a command declare it (R164): absent, or SRC_LEN elements, each 0, of
the kind its unit reads. DESIGN CHOICE: the elements' value (notes/assumptions/21.md). -/
def declaredSource : Instr → Source
  | .enc (.present n) => .bytes (List.replicate n 0)
  | .encL (.present n) _ => .bytes (List.replicate n 0)
  | .encWL (.present n) _ _ _ => .bytes (List.replicate n 0)
  | .dec (.present n) => .text (List.replicate n 0)
  | .decW (.present n) _ _ => .text (List.replicate n 0)
  | .enc .absent => .absent
  | .encL .absent _ => .absent
  | .encWL .absent _ _ _ => .absent
  | .dec .absent => .absent
  | .decW .absent _ _ => .absent

/-- The command of a table word, with the source its descriptor declares. -/
def tableCommand (nbits w : Nat) : Command :=
  { words := tableDescriptor nbits w
    source := match decode (tableDescriptor nbits w) with
      | .ok i => declaredSource i
      | .error _ => .absent }

/-- The command of a table word handed over as the next input. -/
def State.handOver (s : State) (nbits w : Nat) : State :=
  { s with inputs := .command (tableCommand nbits w) :: s.inputs }

end Sys2Proof.Machine
end

