-- ==== Sys2Proof/Machine/Step.lean ====
section
/-! DEFINITION. The step: one whole transaction (spec/10_state.md R31). -/

namespace Sys2Proof.Machine

/-- One step: the oldest input is taken and run. -/
def step : State → Host.Outcome State Fault Refusal := takeInput exec

/-- `s` with the command of a table word where `step` takes its next one (notes/assumptions/21.md). -/
def State.withFetchWord (s : State) (nbits w : Nat) : State := s.handOver nbits w

end Sys2Proof.Machine
end

