-- ==== Sys2Proof/Safety.lean ====
section
/-! DEFINITION. The terms the statements use: what a response may look like, what every step keeps, and the
spec's index forms of the two algorithms, in the arithmetic of spec/00_scope.md R21, written apart from the
machine's own recursive forms. -/

namespace Sys2Proof.Machine

/-- `STATUS`, `V0[1:0]` (30_encoding.md R75). -/
def Response.status (r : Response) : Nat := bits r.v0 1 0

/-- `DST_LEN`, `V1[30:0]` (30_encoding.md R75). -/
def Response.dstLen (r : Response) : Nat := bits r.v1 30 0

/-- The response of a success with a text: STATUS 0, its length, the text (30_encoding.md R75, R76). -/
def okText (out : List CodeUnit) : Response := { v0 := 0, v1 := BitVec.ofNat 32 out.length, output := .text out }

/-- The response of a success with bytes (30_encoding.md R75, R76). -/
def okBytes (out : List Byte) : Response := { v0 := 0, v1 := BitVec.ofNat 32 out.length, output := .bytes out }

/-- InvalidArgument: STATUS 1, DST_LEN 0, no output sequence (30_encoding.md R75, R76). -/
def invalidArgumentResponse : Response := { v0 := 1, v1 := 0, output := .none }

/-- FormatError: STATUS 2, DST_LEN 0, no output sequence (30_encoding.md R75, R76). -/
def formatErrorResponse : Response := { v0 := 2, v1 := 0, output := .none }

/-- The state after the command `c` at the head of the inputs got the response `r`: the configuration, the inputs after it
and every earlier transaction are as before, and `c` stands with its words and its source sequence unchanged
beside `r` (10_state.md R40, R45; 00_scope.md R18). -/
def afterResponse (s : State) (c : Command) (rest : List Input) (r : Response) : State :=
  { cfg := s.cfg, inputs := rest, completed := s.completed ++ [⟨c, r⟩] }

/-- The form of every response: STATUS is 0, 1 or 2, the reserved bits are 0, DST_LEN is the length of the
output, and there is no output sequence exactly when STATUS is not `OK` (30_encoding.md R75, R76). -/
abbrev Response.WellFormed (r : Response) : Prop :=
  r.status ≤ 2 ∧ bits r.v0 31 2 = 0 ∧ bits r.v1 31 31 = 0 ∧ r.dstLen = r.output.length ∧
    (r.output = .none ↔ r.status ≠ 0)

/-- Every code unit of a text output is below 128 (40_encode.md R103). -/
def Response.Ascii (r : Response) : Prop := ∀ out, r.output = .text out → ∀ c ∈ out, c.toNat < 128

/-- `Step(Cfg, cmd) = resp` (10_state.md R31): the response the machine gives the command when it is all the
machine ever sees; none where the machine refuses the command. -/
def respond (cfg : Cfg) (c : Command) : Option Response :=
  match step { cfg := cfg, inputs := [.command c], completed := [] } with
  | .next t => t.completed.head?.map Transaction.response
  | .fault _ => none
  | .refused _ => none

/-- The invariant of the machine: the configuration meets the constraints of 00_scope.md R9 and R14, and every
completed transaction holds a well-formed response, the one `Step` gives its command (10_state.md R31, R45). -/
structure State.Inv (s : State) : Prop where
  legal : s.cfg.Legal
  responses : ∀ t ∈ s.completed, t.response.WellFormed ∧ t.response.Ascii
  answered : ∀ t ∈ s.completed, respond s.cfg t.command = some t.response

/-- The conditions under which a descriptor is reserved, as 30_encoding.md R80 lists them. -/
abbrev ReservedDescriptor (d : Descriptor) : Prop :=
  bits d.w0 7 4 ≠ 0 ∨ (5 ≤ bits d.w0 3 1 ∧ bits d.w0 3 1 ≤ 7) ∨
  (bits d.w0 0 0 = 1 ∧ (bits d.w0 3 1 = 0 ∨ bits d.w0 3 1 = 3 ∨ bits d.w0 3 1 = 4)) ∨
  bits d.w0 31 9 ≠ 0 ∨ bits d.w3 31 31 ≠ 0 ∨ (bits d.w0 8 8 = 0 ∧ d.w3 ≠ 0) ∨
  ((bits d.w0 3 1 = 0 ∨ bits d.w0 3 1 = 1 ∨ bits d.w0 3 1 = 3) ∧ (d.w1 ≠ 0 ∨ d.w2 ≠ 0))

/-- The bytes a declared source of an encode command holds. -/
def Source.bytesOf : Source → List Byte
  | .bytes bs => bs
  | _ => []

/-- The code units a declared source of a decode command holds. -/
def Source.textOf : Source → List CodeUnit
  | .text cs => cs
  | _ => []

/-- The source sequence handed over is the one an encode command's operand declares (70_reset_and_hazards.md R164). -/
def bytesDeclared : SrcOperand → Source → Prop
  | .absent, .absent => True
  | .present n, .bytes bs => bs.length = n
  | _, _ => False

/-- The source sequence handed over is the one a decode command's operand declares (70_reset_and_hazards.md R164). -/
def textDeclared : SrcOperand → Source → Prop
  | .absent, .absent => True
  | .present n, .text cs => cs.length = n
  | _, _ => False

/-- The host kept its duty to the command `i` (70_reset_and_hazards.md R164). -/
def sourceDeclared (i : Instr) (source : Source) : Prop :=
  match i with
  | .enc src => bytesDeclared src source
  | .encL src _ => bytesDeclared src source
  | .encWL src _ _ _ => bytesDeclared src source
  | .dec src => textDeclared src source
  | .decW src _ _ => textDeclared src source

/-- The window length and the mode of an encode command (30_encoding.md R77). -/
def encodes : Instr → Option (Nat × LineBreakMode)
  | .enc (.present n) => some (n, .none)
  | .encL (.present n) mode => some (n, mode)
  | .encWL (.present _) _ length mode => some (length.toNat, mode)
  | .enc .absent => none
  | .encL .absent _ => none
  | .encWL .absent _ _ _ => none
  | .dec _ => none
  | .decW _ _ _ => none

/-- The causes (a) to (d) of InvalidArgument for a window form (60_exceptions.md R141). -/
def WindowInvalid : SrcOperand → Int → Int → Prop
  | .absent, _, _ => True
  | .present n, offset, length => offset < 0 ∨ length < 0 ∨ offset + length > n

/-! ### The encoder in index form (40_encode.md R91 to R100) -/

/-- `r = min(3, LENGTH - 3g)`: the bytes present in group `g` (R91, R93). -/
def groupSize (length g : Nat) : Nat := min 3 (length - 3 * g)

/-- `b_k` of group `g`: `MemRead(SRC, OFFSET + 3g + k)` where the group has that byte, else 0 (R91, R93). -/
def groupByte (src : List Byte) (offset length g k : Nat) : Nat :=
  if k < groupSize length g then ((memRead src (offset + 3 * g + k)).getD 0).toNat else 0

/-- Field `j` of group `g`, in arithmetic on naturals (R94). -/
def groupField (src : List Byte) (offset length g j : Nat) : Nat :=
  let b := groupByte src offset length g
  match j with
  | 0 => b 0 / 4
  | 1 => b 0 % 4 * 16 + b 1 / 16
  | 2 => b 1 % 16 * 4 + b 2 / 64
  | _ => b 2 % 64

/-- Character `j` of quartet `g`: the alphabet character of its field, or `PAD` where the group is too short (the
table of R95: with `r` bytes the characters 0 to `r` stand). -/
def bodyChar (cfg : Cfg) (src : List Byte) (offset length g j : Nat) : CodeUnit :=
  if j ≤ groupSize length g then encRom cfg (BitVec.ofNat 6 (groupField src offset length g j)) else pad

/-- `body` is the body of the window: `4 * ceil(LENGTH / 3)` characters, group `g` supplying `4g .. 4g+3` (R96, R97). -/
def IsBody (cfg : Cfg) (src : List Byte) (offset length : Nat) (body : List CodeUnit) : Prop :=
  body.length = 4 * ((length + 2) / 3) ∧
  ∀ g, g < (length + 2) / 3 → ∀ j, j < 4 → body[4 * g + j]? = some (bodyChar cfg src offset length g j)

/-- `NB`: the number of breaks in a wrapped body of `m` characters (R100). -/
def breakCount (cfg : Cfg) (m : Nat) : Nat := if cfg.lbAtEnd then (m + 75) / 76 else (m - 1) / 76

/-- `out` is the wrapped `body`, by the index map of R100: its length, the place of every body character and of
every break. Break `j` stands after body character `min(76 * (j + 1), M) - 1`: R100 writes `76 * (j + 1)` there, which
is the same but for the break LB_AT_END = true puts after a last line shorter than 76, where the algorithm of R99
is followed (notes/assumptions/26.md). -/
def IsWrapped (cfg : Cfg) (body out : List CodeUnit) : Prop :=
  out.length = body.length + breakCount cfg body.length * cfg.lineBreak.length ∧
  (∀ k, k < body.length → out[k + k / 76 * cfg.lineBreak.length]? = body[k]?) ∧
  (∀ j, j < breakCount cfg body.length → ∀ t, t < cfg.lineBreak.length →
    out[min (76 * (j + 1)) body.length + j * cfg.lineBreak.length + t]? = cfg.lineBreak[t]?)

/-- `out` is what the encoder must answer for a window: the body, wrapped on request (R91). -/
def IsEncoding (cfg : Cfg) (src : List Byte) (offset length : Nat) (mode : LineBreakMode) (out : List CodeUnit) :
    Prop :=
  match mode with
  | .none => IsBody cfg src offset length out
  | .insertEvery76 => ∃ body, IsBody cfg src offset length body ∧ IsWrapped cfg body out

/-- The length of that output (R97, R100). -/
def encodedLength (cfg : Cfg) (mode : LineBreakMode) (length : Nat) : Nat :=
  match mode with
  | .none => 4 * ((length + 2) / 3)
  | .insertEvery76 =>
    4 * ((length + 2) / 3) + breakCount cfg (4 * ((length + 2) / 3)) * cfg.lineBreak.length

/-! ### The decoder in index form (41_decode.md R111 to R121) -/

/-- `w(i) = MemRead(SRC, OFFSET + i)` (R110). -/
def windowUnit (text : List CodeUnit) (offset i : Nat) : CodeUnit := (memRead text (offset + i)).getD 0

/-- `p`, the trailing pads of a window of at least 4 units (R111 step 4, R115). -/
def padRun (text : List CodeUnit) (offset length : Nat) : Nat :=
  if windowUnit text offset (length - 1) ≠ pad then 0
  else if windowUnit text offset (length - 2) ≠ pad then 1 else 2

/-- Some window element at an index below `LENGTH - p` is `PAD` (R116). -/
def PadMisplaced (text : List CodeUnit) (offset length : Nat) : Prop :=
  ∃ i, i < length - padRun text offset length ∧ windowUnit text offset i = pad

/-- Some window element at an index below `LENGTH - p` is no digit (R118). -/
def NonDigitPresent (cfg : Cfg) (text : List CodeUnit) (offset length : Nat) : Prop :=
  ∃ i, i < length - padRun text offset length ∧ isDigit cfg (windowUnit text offset i) = false

/-- `d_j` of quartet `q` as a natural number (R111, R119). -/
def quartetDigit (cfg : Cfg) (text : List CodeUnit) (offset q j : Nat) : Nat :=
  (decVal cfg (windowUnit text offset (4 * q + j))).toNat

/-- `byte_k` of quartet `q`, in arithmetic on naturals (R120). -/
def quartetByte (cfg : Cfg) (text : List CodeUnit) (offset q k : Nat) : Nat :=
  let d := quartetDigit cfg text offset q
  match k with
  | 0 => d 0 * 4 + d 1 / 16
  | 1 => d 1 % 16 * 16 + d 2 / 4
  | _ => d 2 % 4 * 64 + d 3

/-- `out` is what the decoder must answer for a window of `LENGTH > 0` units: `3 * (LENGTH / 4) - p` bytes, quartet
`q` supplying `3q ..` (R120, R121). -/
def IsDecoding (cfg : Cfg) (text : List CodeUnit) (offset length : Nat) (out : List Byte) : Prop :=
  out.length = 3 * (length / 4) - padRun text offset length ∧
  ∀ q k, k < 3 → 3 * q + k < out.length →
    out[3 * q + k]? = some (BitVec.ofNat 8 (quartetByte cfg text offset q k))

end Sys2Proof.Machine
end

