-- ==== Sys2Proof/Certificates/Slice0/Obligations.lean ====
section
/-! DEFINITION. The statements for the provers. Each docstring names the rules of spec/ it rests on. A statement that
rests on a decision of the spec's own (a D<n> of spec/92_eei_decisions.md) or on a choice of this model (an entry of
notes/assumptions) says so. -/

open Sys2Proof Sys2Proof.Machine

/-! ### Encoding -/

/-- Decoding the descriptor of a well-formed command gives the command back, with every operand (30_encoding.md R77,
R83, R86; the bit layout is decision D3). -/
def Obligations.DecodeOfEncode : Prop :=
  ∀ i : Instr, i.wf = true → decode (encode i) = .ok i

/-- A defined descriptor has one meaning: the command read from it is well formed and its descriptor is that one
(30_encoding.md R71, R83, R86; decision D3). -/
def Obligations.EncodeOfDecode : Prop :=
  ∀ (d : Descriptor) (i : Instr), decode d = .ok i → i.wf = true ∧ encode i = d

/-- The machine refuses a command as reserved exactly when one of the conditions of 30_encoding.md R80 holds
(decision D16). -/
def Obligations.ReservedExactlyAsListed : Prop :=
  ∀ (s : State) (c : Command) (rest : List Input), s.inputs = .command c :: rest →
    (ReservedDescriptor c.words ↔ ∃ why, step s = .refused (.reserved why))

/-- The command read from a descriptor is that of the one row of the opcode table its `CMD` belongs to
(30_encoding.md R79, R86; decision D3). -/
def Obligations.DecodedCommandIsItsRow : Prop :=
  ∀ (d : Descriptor) (i : Instr), decode d = .ok i → ∀ row ∈ opcodeTable,
    (row.matches (d.w0.setWidth 8) = true ↔ row.mnemonic = i.mnemonic)

/-- The words of vectors TC1 to TC8 and TC9, TC12, TC17 of 95_test_vectors.md decode as listed there. -/
def Obligations.DescriptorWordsDecode : Prop :=
  decode ⟨0x100, 0, 0, 6⟩ = .ok (.enc (.present 6)) ∧
  decode ⟨0x102, 0, 0, 6⟩ = .ok (.encL (.present 6) .none) ∧
  decode ⟨0x103, 0, 0, 58⟩ = .ok (.encL (.present 58) .insertEvery76) ∧
  decode ⟨0x104, 1, 4, 8⟩ = .ok (.encWL (.present 8) 1 4 .none) ∧
  decode ⟨0x105, 0, 58, 58⟩ = .ok (.encWL (.present 58) 0 58 .insertEvery76) ∧
  decode ⟨0x106, 0, 0, 4⟩ = .ok (.dec (.present 4)) ∧
  decode ⟨0x108, 0xFFFFFFFC, 4, 16⟩ = .ok (.decW (.present 16) (-4) 4) ∧
  decode ⟨0x006, 0, 0, 0⟩ = .ok (.dec .absent) ∧
  decode ⟨0x101, 0, 0, 6⟩ = .error .modeBit ∧
  decode ⟨0x10A, 0, 0, 0⟩ = .error .form ∧
  decode ⟨0x106, 0, 0, 0x80000000⟩ = .error .w3High

/-! ### The step -/

/-- A step on a command whose descriptor is defined is `exec` of that command: nothing is added around it
(10_state.md R31, R33). -/
def Obligations.StepRunsTheDecodedCommand : Prop :=
  ∀ (s : State) (c : Command) (rest : List Input) (i : Instr), s.inputs = .command c :: rest →
    decode c.words = .ok i → step s = exec i s

/-- The reset input only leaves the inputs: no configuration and no transaction changes (70_reset_and_hazards.md
R160; decision D19. That it is an element of the inputs is the model's choice, notes/assumptions/13.md). -/
def Obligations.ResetInputHasNoEffect : Prop :=
  ∀ (s : State) (rest : List Input), s.inputs = .reset :: rest →
    step s = .next { cfg := s.cfg, inputs := rest, completed := s.completed }

/-- The frame of every command: when `exec` gives a next state it took the command at the head of the inputs,
and the configuration, the other inputs, every earlier transaction and the command with its source sequence are
unchanged (10_state.md R40, R43, R45; 00_scope.md R18). -/
def Obligations.ExecFrame : Prop :=
  ∀ (i : Instr) (s t : State), exec i s = .next t →
    ∃ c rest r, s.inputs = .command c :: rest ∧ t = afterResponse s c rest r

/-- The frame of every step: it does nothing (no input; the model's choice, notes/assumptions/12.md), takes a
reset with no effect (70_reset_and_hazards.md R160, decision D19; that a reset is an element of the inputs is the model's
choice, notes/assumptions/13.md), or answers the one command at the head of the inputs (10_state.md R31; 00_scope.md
R18). -/
def Obligations.StepFrame : Prop :=
  ∀ s t : State, step s = .next t →
    (s.inputs = [] ∧ t = s) ∨
    (∃ rest, s.inputs = .reset :: rest ∧ t = { cfg := s.cfg, inputs := rest, completed := s.completed }) ∨
    (∃ c rest r, s.inputs = .command c :: rest ∧ respond s.cfg c = some r ∧ t = afterResponse s c rest r)

/-- The response of a command depends on nothing but the configuration and the command: whatever else the host handed
over, whatever ran before and whatever it answered, it is the one of `Step(Cfg, cmd)` (10_state.md R31, R45;
20_memory.md R60; 60_exceptions.md R150). -/
def Obligations.ResponseDependsOnTheCommandAlone : Prop :=
  ∀ (s : State) (c : Command) (rest : List Input), s.inputs = .command c :: rest →
    (∀ r, respond s.cfg c = some r → step s = .next (afterResponse s c rest r)) ∧
    (respond s.cfg c = none → ∃ why, step s = .refused why)

/-- Every step keeps the invariant: legal parameters, well-formed responses (STATUS 0, 1 or 2, reserved bits 0,
DST_LEN the length of the output, no output exactly on an error), texts below 128, and each response the one `Step`
gives its command (30_encoding.md R75, R76; 40_encode.md R103; 10_state.md R45). -/
def Obligations.StepKeepsTheInvariant : Prop :=
  ∀ s t : State, s.Inv → step s = .next t → t.Inv

/-- The invariant holds right after reset (the default parameters are the spec's own, D5, D6, D9: notes/assumptions/3.md,
4.md). -/
def Obligations.ResetMeetsTheInvariant : Prop := State.reset.Inv

/-- Commands handed over together, each of them one that `Step` answers, are all answered, in order, each with the response `Step` gives it
(70_reset_and_hazards.md R172; 20_memory.md R61. The order is the model's choice, notes/assumptions/14.md). -/
def Obligations.RunAnswersEveryCommand : Prop :=
  ∀ (s : State) (cs : List Command) (rs : List Response), s.inputs = cs.map .command →
    List.Forall₂ (fun c r => respond s.cfg c = some r) cs rs →
    Sys2Proof.core.run cs.length s =
      .next { cfg := s.cfg, inputs := [], completed := s.completed ++ List.zipWith Transaction.mk cs rs }

/-- The responses do not depend on the order in which the commands are run: the same commands in any other order
give the same transactions (20_memory.md R61; decision D21). -/
def Obligations.OrderOfCommandsIsInvisible : Prop :=
  ∀ (s s' t : State) (cs cs' : List Command), s'.cfg = s.cfg → s.completed = [] → s'.completed = [] →
    s.inputs = cs.map .command → s'.inputs = cs'.map .command → cs.Perm cs' →
    Sys2Proof.core.run cs.length s = .next t →
    ∃ t' : State, Sys2Proof.core.run cs'.length s' = .next t' ∧ t'.cfg = t.cfg ∧ t'.inputs = [] ∧
      t'.completed.Perm t.completed

/-- Every defined command whose host kept its duty is answered; the one thing that stops it is an encoder output longer
than MAX_LEN (70_reset_and_hazards.md R172, R164; 60_exceptions.md R154). -/
def Obligations.DefinedCommandIsAnswered : Prop :=
  ∀ (s : State) (c : Command) (rest : List Input) (i : Instr), s.inputs = .command c :: rest →
    decode c.words = .ok i → sourceDeclared i c.source →
    (∃ r, step s = .next (afterResponse s c rest r)) ∨
    (step s = .refused .outputTooLong ∧
      ∃ n mode, encodes i = some (n, mode) ∧ maxLen < encodedLength s.cfg mode n)

/-- A command whose source sequence is not the one its operand declares is refused under that name, and so is a
command asked for where none stands at the head of the inputs (the model's choices, notes/assumptions/15.md and 22.md;
70_reset_and_hazards.md R164). -/
def Obligations.UndeclaredSourceIsRefused : Prop :=
  (∀ (i : Instr) (s : State) (c : Command) (rest : List Input), s.inputs = .command c :: rest →
    ¬ sourceDeclared i c.source → exec i s = .refused .sourceMismatch) ∧
  (∀ (i : Instr) (s : State), (∀ c rest, s.inputs ≠ .command c :: rest) → exec i s = .refused .noCommand)

/-- The step on the state with a table word in place runs the command the decoder reads from that word
(notes/assumptions/21.md). -/
def Obligations.FetchWordRunsItsCommand : Prop :=
  ∀ (s : State) (nbits w : Nat) (i : Instr), decodeTableWord nbits w = some i →
    step (s.withFetchWord nbits w) = exec i (s.withFetchWord nbits w)

/-! ### The encoder -/

/-- `ENC` and `ENC.L` with a present sequence answer `OK` with the text the index form gives for the whole sequence, in the
mode of the command, and change nothing else (40_encode.md R91 to R100, R104, R105). The text with line breaks rests on
decisions D9 and D10, and the place of a break after a short last line follows R99, not R100 (notes/assumptions/26.md). -/
def Obligations.EncAndEncLAnswerTheText : Prop :=
  ∀ (s : State) (c : Command) (rest : List Input) (bs : List Byte),
    s.inputs = .command c :: rest → c.source = .bytes bs →
    (encodedLength s.cfg .none bs.length ≤ maxLen →
      ∃ out, exec (.enc (.present bs.length)) s = .next (afterResponse s c rest (okText out)) ∧
        IsEncoding s.cfg bs 0 bs.length .none out) ∧
    (∀ mode, encodedLength s.cfg mode bs.length ≤ maxLen →
      ∃ out, exec (.encL (.present bs.length) mode) s = .next (afterResponse s c rest (okText out)) ∧
        IsEncoding s.cfg bs 0 bs.length mode out)

/-- `ENC.WL` with a valid window and mode `none` answers `OK` with the body of that window and changes nothing else: groups
of 3 bytes counted from OFFSET, a missing byte of the last one 0, the four fields of each looked up in the alphabet,
the unused positions of the last quartet `PAD`, the quartets in the order of the groups (40_encode.md R93, R94, R95,
R96). -/
def Obligations.EncWLAnswersTheBody : Prop :=
  ∀ (s : State) (c : Command) (rest : List Input) (bs : List Byte) (offset length : Nat),
    s.inputs = .command c :: rest → c.source = .bytes bs → offset + length ≤ bs.length →
    4 * ((length + 2) / 3) ≤ maxLen →
    ∃ out, exec (.encWL (.present bs.length) offset length .none) s = .next (afterResponse s c rest (okText out)) ∧
      IsBody s.cfg bs offset length out

/-- `ENC.WL` with a valid window and mode `insertEvery76` answers `OK` with the wrapped body of that window and changes nothing
else (R99, R106; decisions D9, D10. The place of a break after a short last line follows R99, notes/assumptions/26.md). -/
def Obligations.EncWLAnswersTheWrappedText : Prop :=
  ∀ (s : State) (c : Command) (rest : List Input) (bs : List Byte) (offset length : Nat),
    s.inputs = .command c :: rest → c.source = .bytes bs → offset + length ≤ bs.length →
    encodedLength s.cfg .insertEvery76 length ≤ maxLen →
    ∃ out, exec (.encWL (.present bs.length) offset length .insertEvery76) s =
        .next (afterResponse s c rest (okText out)) ∧
      IsEncoding s.cfg bs offset length .insertEvery76 out

/-- The short forms are the full forms with defaulted operands, and every form with an absent sequence gives
InvalidArgument (30_encoding.md R84; decision D18). -/
def Obligations.ShortFormsAreFullForms : Prop :=
  (∀ (s : State) (n : Nat) (mode : LineBreakMode),
    exec (.enc (.present n)) s = exec (.encL (.present n) .none) s ∧
    exec (.encL (.present n) mode) s = exec (.encWL (.present n) 0 n mode) s ∧
    exec (.dec (.present n)) s = exec (.decW (.present n) 0 n) s) ∧
  (∀ (s : State) (c : Command) (rest : List Input) (offset length : Int) (mode : LineBreakMode),
    s.inputs = .command c :: rest → c.source = .absent →
    exec (.enc .absent) s = .next (afterResponse s c rest invalidArgumentResponse) ∧
    exec (.encL .absent mode) s = .next (afterResponse s c rest invalidArgumentResponse) ∧
    exec (.encWL .absent offset length mode) s = .next (afterResponse s c rest invalidArgumentResponse) ∧
    exec (.dec .absent) s = .next (afterResponse s c rest invalidArgumentResponse) ∧
    exec (.decW .absent offset length) s = .next (afterResponse s c rest invalidArgumentResponse))

/-- With LB_AT_END = false, line-break mode changes nothing for a sequence of at most 57 bytes, and makes the output
longer for every sequence of 58 bytes or more (40_encode.md R105; decisions D9, D10). -/
def Obligations.FirstBreakNeedsFiftyEightBytes : Prop :=
  ∀ (s : State) (c : Command) (rest : List Input) (bs : List Byte),
    s.inputs = .command c :: rest → c.source = .bytes bs → s.cfg.lbAtEnd = false →
    (bs.length ≤ 57 → exec (.encL (.present bs.length) .insertEvery76) s = exec (.enc (.present bs.length)) s) ∧
    (58 ≤ bs.length → s.cfg.lineBreak ≠ [] → encodedLength s.cfg .insertEvery76 bs.length ≤ maxLen →
      ∃ out out', exec (.encL (.present bs.length) .insertEvery76) s = .next (afterResponse s c rest (okText out)) ∧
        exec (.enc (.present bs.length)) s = .next (afterResponse s c rest (okText out')) ∧
        out'.length < out.length)

/-- "`encode([])  = \"\"`; `decode(\"\") = []`": both are `OK` responses with DST_LEN = 0 (41_decode.md R131). -/
def Obligations.BoundaryLaw : Prop :=
  ∀ (s : State) (c : Command) (rest : List Input), s.inputs = .command c :: rest →
    (c.source = .bytes [] → exec (.enc (.present 0)) s =
      .next (afterResponse s c rest { v0 := 0, v1 := 0, output := .text [] })) ∧
    (c.source = .text [] → exec (.dec (.present 0)) s =
      .next (afterResponse s c rest { v0 := 0, v1 := 0, output := .bytes [] }))

/-- An empty window of valid operands gives `OK` with an empty output, whatever the source holds and whatever the
mode and LB_AT_END are (40_encode.md R92; 41_decode.md R113). -/
def Obligations.EmptyWindowGivesEmptyOutput : Prop :=
  ∀ (s : State) (c : Command) (rest : List Input) (offset : Nat), s.inputs = .command c :: rest →
    (∀ bs mode, c.source = .bytes bs → offset ≤ bs.length →
      exec (.encWL (.present bs.length) offset 0 mode) s =
        .next (afterResponse s c rest { v0 := 0, v1 := 0, output := .text [] })) ∧
    (∀ mode, c.source = .bytes [] →
      exec (.encL (.present 0) mode) s =
        .next (afterResponse s c rest { v0 := 0, v1 := 0, output := .text [] })) ∧
    (∀ cs, c.source = .text cs → offset ≤ cs.length →
      exec (.decW (.present cs.length) offset 0) s =
        .next (afterResponse s c rest { v0 := 0, v1 := 0, output := .bytes [] }))

/-- The length law: without line breaks DST_LEN is `4 * ceil(LENGTH / 3)`, a multiple of 4; with line breaks the law
holds of the body that is wrapped (40_encode.md R97). How that body is wrapped rests on R99 and R100, decisions D9 and D10,
and the place of a break after a short last line follows R99, not R100 (notes/assumptions/26.md). -/
def Obligations.EncodedLengthLaw : Prop :=
  ∀ (s : State) (c : Command) (rest : List Input) (bs : List Byte) (offset length : Nat),
    s.inputs = .command c :: rest → c.source = .bytes bs → offset + length ≤ bs.length →
    (4 * ((length + 2) / 3) ≤ maxLen →
      ∃ r : Response, exec (.encWL (.present bs.length) offset length .none) s = .next (afterResponse s c rest r) ∧
        r.status = 0 ∧ r.dstLen = 4 * ((length + 2) / 3) ∧ r.dstLen % 4 = 0) ∧
    (encodedLength s.cfg .insertEvery76 length ≤ maxLen →
      ∃ out body, exec (.encWL (.present bs.length) offset length .insertEvery76) s =
          .next (afterResponse s c rest (okText out)) ∧
        IsWrapped s.cfg body out ∧ body.length = 4 * ((length + 2) / 3) ∧ body.length % 4 = 0)

/-- The padding law: no pad, two pads or one pad for LENGTH mod 3 = 0, 1, 2, and `PAD` only as the last one or two
characters (40_encode.md R98). -/
def Obligations.PaddingLaw : Prop :=
  ∀ (s : State) (c : Command) (rest : List Input) (bs : List Byte) (offset length : Nat),
    s.inputs = .command c :: rest → c.source = .bytes bs → offset + length ≤ bs.length →
    s.cfg.SymbolsLegal → 4 * ((length + 2) / 3) ≤ maxLen →
    ∃ out, exec (.encWL (.present bs.length) offset length .none) s = .next (afterResponse s c rest (okText out)) ∧
      (length % 3 = 0 → out.count pad = 0) ∧ (length % 3 = 1 → out.count pad = 2) ∧
      (length % 3 = 2 → out.count pad = 1) ∧
      (∀ k, out[k]? = some pad → out.length - out.count pad ≤ k)

/-- Removing every element of LINE_BREAK from the wrapped output gives the output without line breaks back
(40_encode.md R101; 00_scope.md R14; decision D9). -/
def Obligations.RemovingBreaksGivesTheBody : Prop :=
  ∀ (s : State) (c : Command) (rest : List Input) (bs : List Byte) (offset length : Nat),
    s.inputs = .command c :: rest → c.source = .bytes bs → offset + length ≤ bs.length →
    s.cfg.Legal → encodedLength s.cfg .insertEvery76 length ≤ maxLen →
    ∃ out body,
      exec (.encWL (.present bs.length) offset length .insertEvery76) s = .next (afterResponse s c rest (okText out)) ∧
      exec (.encWL (.present bs.length) offset length .none) s = .next (afterResponse s c rest (okText body)) ∧
      out.filter (fun u => decide (u ∉ s.cfg.lineBreak)) = body

/-- Every element of an encoder output is an `ENC_ROM` entry, `PAD`, or (only in line-break mode) an element of
LINE_BREAK, each below 128; an output without breaks never holds an alternate symbol (40_encode.md R103; 00_scope.md
R10; decisions D5, D6, D9). -/
def Obligations.OutputAlphabet : Prop :=
  ∀ (s : State) (c : Command) (rest : List Input) (bs : List Byte) (offset length : Nat) (mode : LineBreakMode),
    s.inputs = .command c :: rest → c.source = .bytes bs → offset + length ≤ bs.length →
    s.cfg.Legal → encodedLength s.cfg mode length ≤ maxLen →
    ∃ out, exec (.encWL (.present bs.length) offset length mode) s = .next (afterResponse s c rest (okText out)) ∧
      ∀ u ∈ out, u.toNat < 128 ∧
        ((∃ i, u = encRom s.cfg i) ∨ u = pad ∨ (mode = .insertEvery76 ∧ u ∈ s.cfg.lineBreak)) ∧
        (mode = .none → u ≠ s.cfg.alt62 ∧ u ≠ s.cfg.alt63)

/-- The encoder unit raises InvalidArgument and nothing else: every response of its commands is that error or a success
with a text (40_encode.md R90; 60_exceptions.md R143). -/
def Obligations.EncoderRaisesOnlyInvalidArgument : Prop :=
  ∀ (s t : State) (src : SrcOperand) (offset length : Int) (mode : LineBreakMode),
    exec (.enc src) s = .next t ∨ exec (.encL src mode) s = .next t ∨
      exec (.encWL src offset length mode) s = .next t →
    ∃ c rest r, s.inputs = .command c :: rest ∧ t = afterResponse s c rest r ∧
      (r = invalidArgumentResponse ∨ ∃ out, r = okText out)

/-- Two different windows have different texts (40_encode.md R108). -/
def Obligations.EncodingIsInjective : Prop :=
  ∀ (s s' : State) (c c' : Command) (rest rest' : List Input) (bs bs' : List Byte) (o n o' n' : Nat),
    s'.cfg = s.cfg → s.cfg.SymbolsLegal → s.inputs = .command c :: rest → s'.inputs = .command c' :: rest' →
    c.source = .bytes bs → c'.source = .bytes bs' → o + n ≤ bs.length → o' + n' ≤ bs'.length →
    4 * ((n + 2) / 3) ≤ maxLen → 4 * ((n' + 2) / 3) ≤ maxLen →
    (bs.drop o).take n ≠ (bs'.drop o').take n' →
    ∃ out out', exec (.encWL (.present bs.length) o n .none) s = .next (afterResponse s c rest (okText out)) ∧
      exec (.encWL (.present bs'.length) o' n' .none) s' = .next (afterResponse s' c' rest' (okText out')) ∧
      out ≠ out'

/-- An output longer than MAX_LEN is refused, and only that: without line breaks exactly when LENGTH is above 1610612733;
a decode command is never refused for it (60_exceptions.md R154; decision D20). -/
def Obligations.TooLongOutputIsRefused : Prop :=
  ∀ (s : State) (c : Command) (rest : List Input), s.inputs = .command c :: rest →
    (∀ (bs : List Byte) (offset length : Nat) (mode : LineBreakMode), c.source = .bytes bs →
      offset + length ≤ bs.length →
      (exec (.encWL (.present bs.length) offset length mode) s = .refused .outputTooLong ↔
        maxLen < encodedLength s.cfg mode length)) ∧
    (∀ (bs : List Byte) (offset length : Nat), c.source = .bytes bs → offset + length ≤ bs.length →
      (exec (.encWL (.present bs.length) offset length .none) s = .refused .outputTooLong ↔
        1610612733 < length)) ∧
    (∀ (src : SrcOperand) (offset length : Int), src.wf = true →
      exec (.dec src) s ≠ .refused .outputTooLong ∧ exec (.decW src offset length) s ≠ .refused .outputTooLong)

/-! ### Errors -/

/-- InvalidArgument, exactly: an absent sequence for every command, a negative OFFSET or LENGTH or a window beyond the
sequence for the window forms, and nothing else; the sum does not wrap (60_exceptions.md R141; 30_encoding.md R78). That
the operands are validated before the empty return and before the length, and on integers that do not wrap, rests on
decisions D11, D12 and D13 (notes/assumptions/18.md). -/
def Obligations.InvalidArgumentExactly : Prop :=
  ∀ (s : State) (c : Command) (rest : List Input), s.inputs = .command c :: rest →
    (∀ src, bytesDeclared src c.source →
      (exec (.enc src) s = .next (afterResponse s c rest invalidArgumentResponse) ↔ src = .absent)) ∧
    (∀ src mode, bytesDeclared src c.source →
      (exec (.encL src mode) s = .next (afterResponse s c rest invalidArgumentResponse) ↔ src = .absent)) ∧
    (∀ src offset length mode, bytesDeclared src c.source →
      (exec (.encWL src offset length mode) s = .next (afterResponse s c rest invalidArgumentResponse) ↔
        WindowInvalid src offset length)) ∧
    (∀ src, textDeclared src c.source →
      (exec (.dec src) s = .next (afterResponse s c rest invalidArgumentResponse) ↔ src = .absent)) ∧
    (∀ src offset length, textDeclared src c.source →
      (exec (.decW src offset length) s = .next (afterResponse s c rest invalidArgumentResponse) ↔
        WindowInvalid src offset length))

/-- FormatError, exactly, on this hardware (UNKNOWN_POLICY = ZERO): valid operands and either LENGTH not a multiple of
4 or a `PAD` at a window index below `LENGTH - p`; no encode command raises it (60_exceptions.md R142, R143). That the
operands come first rests on decision D13 (notes/assumptions/18.md); that a `PAD` at position 2 before a non-pad fails, and
that unrecognised units and discarded bits do not, on decisions D14, D15 and D22 (notes/assumptions/19.md). -/
def Obligations.FormatErrorExactly : Prop :=
  ∀ (s : State) (c : Command) (rest : List Input), s.inputs = .command c :: rest → s.cfg.unknownPolicy = .zero →
    (∀ src offset length, textDeclared src c.source →
      (exec (.decW src offset length) s = .next (afterResponse s c rest formatErrorResponse) ↔
        ¬ WindowInvalid src offset length ∧
        (length % 4 ≠ 0 ∨ (0 < length ∧ PadMisplaced c.source.textOf offset.toNat length.toNat)))) ∧
    (∀ n, textDeclared (.present n) c.source →
      (exec (.dec (.present n)) s = .next (afterResponse s c rest formatErrorResponse) ↔
        n % 4 ≠ 0 ∨ (0 < n ∧ PadMisplaced c.source.textOf 0 n))) ∧
    exec (.dec .absent) s ≠ .next (afterResponse s c rest formatErrorResponse) ∧
    (∀ src, exec (.enc src) s ≠ .next (afterResponse s c rest formatErrorResponse)) ∧
    (∀ src mode, exec (.encL src mode) s ≠ .next (afterResponse s c rest formatErrorResponse)) ∧
    (∀ src offset length mode,
      exec (.encWL src offset length mode) s ≠ .next (afterResponse s c rest formatErrorResponse))

/-- A text whose length is not a multiple of 4 fails with FormatError, independent of content; a window likewise when
its operands are valid, and with invalid operands the result is InvalidArgument whatever its length
(41_decode.md R112, R130). That InvalidArgument comes first rests on decision D13 and conflict C5
(notes/assumptions/18.md). -/
def Obligations.LengthNotMultipleOfFourFails : Prop :=
  ∀ (s : State) (c : Command) (rest : List Input) (text : List CodeUnit),
    s.inputs = .command c :: rest → c.source = .text text →
    (text.length % 4 ≠ 0 →
      exec (.dec (.present text.length)) s = .next (afterResponse s c rest formatErrorResponse)) ∧
    (∀ offset length : Int, length % 4 ≠ 0 →
      (0 ≤ offset ∧ 0 ≤ length ∧ offset + length ≤ text.length →
        exec (.decW (.present text.length) offset length) s = .next (afterResponse s c rest formatErrorResponse)) ∧
      (¬ (0 ≤ offset ∧ 0 ≤ length ∧ offset + length ≤ text.length) →
        exec (.decW (.present text.length) offset length) s =
          .next (afterResponse s c rest invalidArgumentResponse)))

/-- When several causes apply the response reports one status, in the order of 60_exceptions.md R146: InvalidArgument,
FormatError for the length, FormatError for a misplaced `PAD`, and with REJECT only FormatError for a non-digit; with
none of them the response is a success (decision D13). -/
def Obligations.ErrorPriority : Prop :=
  ∀ (s : State) (c : Command) (rest : List Input) (src : SrcOperand) (offset length : Int),
    s.inputs = .command c :: rest → textDeclared src c.source → src.wf = true →
    (WindowInvalid src offset length →
      exec (.decW src offset length) s = .next (afterResponse s c rest invalidArgumentResponse)) ∧
    (¬ WindowInvalid src offset length →
      (length % 4 ≠ 0 →
        exec (.decW src offset length) s = .next (afterResponse s c rest formatErrorResponse)) ∧
      (length % 4 = 0 → 0 < length →
        (PadMisplaced c.source.textOf offset.toNat length.toNat →
          exec (.decW src offset length) s = .next (afterResponse s c rest formatErrorResponse)) ∧
        (¬ PadMisplaced c.source.textOf offset.toNat length.toNat →
          (s.cfg.unknownPolicy = .reject ∧ NonDigitPresent s.cfg c.source.textOf offset.toNat length.toNat →
            exec (.decW src offset length) s = .next (afterResponse s c rest formatErrorResponse)) ∧
          (¬ (s.cfg.unknownPolicy = .reject ∧ NonDigitPresent s.cfg c.source.textOf offset.toNat length.toNat) →
            ∃ out, exec (.decW src offset length) s = .next (afterResponse s c rest (okBytes out))))))

/-! ### The tables and the packing -/

/-- `ENC_ROM`: its 64 entries, and all different (10_state.md R36; 00_scope.md R9). The numbers of the letters and digits
are presumed (GK1, notes/assumptions/8.md). -/
def Obligations.EncRomEntries : Prop :=
  ∀ cfg : Cfg, cfg.SymbolsLegal →
    (∀ i : Nat, i ≤ 25 → encRom cfg (BitVec.ofNat 6 i) = BitVec.ofNat 16 (0x41 + i)) ∧
    (∀ i : Nat, 26 ≤ i → i ≤ 51 → encRom cfg (BitVec.ofNat 6 i) = BitVec.ofNat 16 (0x61 + (i - 26))) ∧
    (∀ i : Nat, 52 ≤ i → i ≤ 61 → encRom cfg (BitVec.ofNat 6 i) = BitVec.ofNat 16 (0x30 + (i - 52))) ∧
    encRom cfg 62 = cfg.sym62 ∧ encRom cfg 63 = cfg.sym63 ∧
    (∀ i j : Digit, encRom cfg i = encRom cfg j → i = j)

/-- `DEC_ROM`: the value of an alphabet character, 62 and 63 for the alternates, 0 for every other of the 128 code
units, 66 of which are digits, `A` alone among them of value 0 (10_state.md R37). That `A` is 0x41 is presumed
(GK1, notes/assumptions/8.md). -/
def Obligations.DecRomEntries : Prop :=
  ∀ cfg : Cfg, cfg.SymbolsLegal →
    (∀ (index : BitVec 7) (v : Digit), index.setWidth 16 = encRom cfg v → decRom cfg index = v) ∧
    (∀ index : BitVec 7, index.setWidth 16 = cfg.alt62 → decRom cfg index = 62) ∧
    (∀ index : BitVec 7, index.setWidth 16 = cfg.alt63 → decRom cfg index = 63) ∧
    (∀ index : BitVec 7, (∀ v, index.setWidth 16 ≠ encRom cfg v) → index.setWidth 16 ≠ cfg.alt62 →
      index.setWidth 16 ≠ cfg.alt63 → decRom cfg index = 0) ∧
    (∀ v, encRom cfg v ≠ cfg.alt62 ∧ encRom cfg v ≠ cfg.alt63) ∧
    ((List.range 128).filter (fun n => isDigit cfg (BitVec.ofNat 16 n))).length = 66 ∧
    (∀ c, isDigit cfg c = true → decVal cfg c = 0 → c = 0x41)

/-- The decode table under the default parameters, as printed in 10_state.md R38 (decisions D5, D6). The numbers of the
letters, digits and symbols, by which the table is indexed, are presumed (GK1, notes/assumptions/8.md). -/
def Obligations.DecRomDefaultTable : Prop :=
  (List.range 128).map (fun n => (decRom defaultCfg (BitVec.ofNat 7 n)).toNat) =
    [0, 0, 0, 0, 0, 0, 0, 0, 0, 0, 0, 0, 0, 0, 0, 0] ++ [0, 0, 0, 0, 0, 0, 0, 0, 0, 0, 0, 0, 0, 0, 0, 0] ++
    [0, 62, 0, 0, 0, 0, 0, 0, 0, 0, 63, 62, 0, 0, 0, 63] ++
    [52, 53, 54, 55, 56, 57, 58, 59, 60, 61, 0, 0, 0, 0, 0, 0] ++
    [0, 0, 1, 2, 3, 4, 5, 6, 7, 8, 9, 10, 11, 12, 13, 14] ++
    [15, 16, 17, 18, 19, 20, 21, 22, 23, 24, 25, 0, 0, 0, 0, 0] ++
    [0, 26, 27, 28, 29, 30, 31, 32, 33, 34, 35, 36, 37, 38, 39, 40] ++
    [41, 42, 43, 44, 45, 46, 47, 48, 49, 50, 51, 0, 0, 0, 0, 0]

/-- `DecVal` of every code unit: its digit value for an alphabet character or an alternate, 0 for everything else,
`PAD` and every unit above 127 among them; and `IsDigit` says which is which (41_decode.md R117; decision D15). -/
def Obligations.DecValOfEveryUnit : Prop :=
  ∀ cfg : Cfg, cfg.SymbolsLegal →
    (∀ v, decVal cfg (encRom cfg v) = v) ∧ decVal cfg cfg.alt62 = 62 ∧ decVal cfg cfg.alt63 = 63 ∧
    (∀ c, isDigit cfg c = false → decVal cfg c = 0) ∧
    (∀ c : CodeUnit, 128 ≤ c.toNat → isDigit cfg c = false) ∧ isDigit cfg pad = false ∧
    (∀ c, isDigit cfg c = true ↔ (∃ v, c = encRom cfg v) ∨ c = cfg.alt62 ∨ c = cfg.alt63)

/-- The two members of a symbol pair share a value, and no other two different digits do (41_decode.md R123;
decisions D5, D6). -/
def Obligations.OnlySymbolPairsShareAValue : Prop :=
  ∀ cfg : Cfg, cfg.SymbolsLegal →
    decVal cfg cfg.sym62 = decVal cfg cfg.alt62 ∧ decVal cfg cfg.sym63 = decVal cfg cfg.alt63 ∧
    (∀ c c' : CodeUnit, isDigit cfg c = true → isDigit cfg c' = true → decVal cfg c = decVal cfg c' →
      c = c' ∨ (c = cfg.sym62 ∧ c' = cfg.alt62) ∨ (c = cfg.alt62 ∧ c' = cfg.sym62) ∨
        (c = cfg.sym63 ∧ c' = cfg.alt63) ∨ (c = cfg.alt63 ∧ c' = cfg.sym63))

/-- The encoder packs most significant first: the four fields of a group, by their arithmetic on naturals, are the
6-bit slices of its 24-bit value `b0 @ b1 @ b2` from the top (40_encode.md R94; 20_memory.md R50). -/
def Obligations.EncoderPackingIsMostSignificantFirst : Prop :=
  ∀ b0 b1 b2 : Byte,
    let v := b0.toNat * 65536 + b1.toNat * 256 + b2.toNat
    ((field0 b0).toNat = b0.toNat / 4 ∧ (field1 b0 b1).toNat = b0.toNat % 4 * 16 + b1.toNat / 16 ∧
      (field2 b1 b2).toNat = b1.toNat % 16 * 4 + b2.toNat / 64 ∧ (field3 b2).toNat = b2.toNat % 64) ∧
    ((field0 b0).toNat = v / 2 ^ 18 ∧ (field1 b0 b1).toNat = v / 2 ^ 12 % 64 ∧
      (field2 b1 b2).toNat = v / 2 ^ 6 % 64 ∧ (field3 b2).toNat = v % 64)

/-- The decoder packs most significant first: the three bytes of a quartet, by their arithmetic on naturals, are the 8-bit
slices of its 24-bit value `d0 @ d1 @ d2 @ d3` from the top (41_decode.md R120; 20_memory.md R51, whose slices the spec
marks derived). -/
def Obligations.DecoderPackingIsMostSignificantFirst : Prop :=
  ∀ d0 d1 d2 d3 : Digit,
    let v := d0.toNat * 2 ^ 18 + d1.toNat * 2 ^ 12 + d2.toNat * 2 ^ 6 + d3.toNat
    ((byte0 d0 d1).toNat = d0.toNat * 4 + d1.toNat / 16 ∧ (byte1 d1 d2).toNat = d1.toNat % 16 * 16 + d2.toNat / 4 ∧
      (byte2 d2 d3).toNat = d2.toNat % 4 * 64 + d3.toNat) ∧
    ((byte0 d0 d1).toNat = v / 65536 ∧ (byte1 d1 d2).toNat = v / 256 % 256 ∧ (byte2 d2 d3).toNat = v % 256)

/-! ### The decoder -/

/-- `DEC` with a present text of a positive multiple of 4 units, no misplaced `PAD` and (under REJECT) only digits
answers `OK` with the bytes the index form of 41_decode.md R111 gives for the whole text, and changes nothing else
(R119 to R121, R127). -/
def Obligations.DecAnswersTheBytes : Prop :=
  ∀ (s : State) (c : Command) (rest : List Input) (text : List CodeUnit),
    s.inputs = .command c :: rest → c.source = .text text → text.length ≤ maxLen →
    text.length % 4 = 0 → 0 < text.length → ¬ PadMisplaced text 0 text.length →
    (s.cfg.unknownPolicy = .zero ∨ ¬ NonDigitPresent s.cfg text 0 text.length) →
    ∃ out, exec (.dec (.present text.length)) s = .next (afterResponse s c rest (okBytes out)) ∧
      IsDecoding s.cfg text 0 text.length out

/-- `DEC.W` with a valid window of a positive multiple of 4 units, no misplaced `PAD` in it and (under REJECT) only digits
answers `OK` with the bytes the index form of 41_decode.md R111 gives for that window, quartets counted from
OFFSET, and changes nothing else (R128; 20_memory.md R53). -/
def Obligations.DecWAnswersTheBytes : Prop :=
  ∀ (s : State) (c : Command) (rest : List Input) (text : List CodeUnit) (offset length : Nat),
    s.inputs = .command c :: rest → c.source = .text text → text.length ≤ maxLen →
    offset + length ≤ text.length → length % 4 = 0 → 0 < length → ¬ PadMisplaced text offset length →
    (s.cfg.unknownPolicy = .zero ∨ ¬ NonDigitPresent s.cfg text offset length) →
    ∃ out, exec (.decW (.present text.length) offset length) s = .next (afterResponse s c rest (okBytes out)) ∧
      IsDecoding s.cfg text offset length out

/-- The output length of a success is `3 * (LENGTH / 4) - p` with `p` in {0, 1, 2}; one byte is the least, for a
window of 4 units with two pads (41_decode.md R121). -/
def Obligations.DecodedLengthLaw : Prop :=
  ∀ (s : State) (c : Command) (rest : List Input) (text : List CodeUnit) (offset length : Nat) (out : List Byte),
    s.inputs = .command c :: rest → c.source = .text text → 0 < length →
    exec (.decW (.present text.length) offset length) s = .next (afterResponse s c rest (okBytes out)) →
    (okBytes out).dstLen = 3 * (length / 4) - padRun text offset length ∧ padRun text offset length ≤ 2 ∧
    1 ≤ (okBytes out).dstLen ∧ ((okBytes out).dstLen = 1 ↔ length = 4 ∧ padRun text offset length = 2)

/-- Discarded bits are not checked: with two trailing pads the low 4 bits of the last digit, and with one the low 2 bits,
do not change the response (41_decode.md R124; decision D22). -/
def Obligations.DiscardedBitsAreNotChecked : Prop :=
  ∀ (s s' : State) (c c' : Command) (rest rest' : List Input) (front : List CodeUnit) (a b d d' : CodeUnit),
    s'.cfg = s.cfg → s.cfg.unknownPolicy = .zero → d ≠ pad → d' ≠ pad →
    s.inputs = .command c :: rest → s'.inputs = .command c' :: rest' →
    (c.source = .text (front ++ [a, d, pad, pad]) → c'.source = .text (front ++ [a, d', pad, pad]) →
      (decVal s.cfg d).toNat / 16 = (decVal s.cfg d').toNat / 16 →
      ∀ r, exec (.dec (.present (front.length + 4))) s = .next (afterResponse s c rest r) ↔
        exec (.dec (.present (front.length + 4))) s' = .next (afterResponse s' c' rest' r)) ∧
    (c.source = .text (front ++ [a, b, d, pad]) → c'.source = .text (front ++ [a, b, d', pad]) →
      (decVal s.cfg d).toNat / 4 = (decVal s.cfg d').toNat / 4 →
      ∀ r, exec (.dec (.present (front.length + 4))) s = .next (afterResponse s c rest r) ↔
        exec (.dec (.present (front.length + 4))) s' = .next (afterResponse s' c' rest' r))

/-- Silent acceptance of garbage: under ZERO every code unit that is neither a digit nor `PAD` decodes as `A`: replacing all
of them by `A` does not change the response, whatever the window (70_reset_and_hazards.md R166; 41_decode.md R117;
decision D15). That `A` is 0x41 is presumed (GK1, notes/assumptions/8.md). -/
def Obligations.UnrecognisedDecodesAsLetterA : Prop :=
  ∀ (s s' : State) (c c' : Command) (rest rest' : List Input) (text : List CodeUnit), s'.cfg = s.cfg →
    s.cfg.unknownPolicy = .zero → s.cfg.SymbolsLegal →
    s.inputs = .command c :: rest → s'.inputs = .command c' :: rest' → c.source = .text text →
    c'.source = .text (text.map fun u => if isDigit s.cfg u = false ∧ u ≠ pad then 0x41 else u) →
    (∀ r, exec (.dec (.present text.length)) s = .next (afterResponse s c rest r) ↔
      exec (.dec (.present text.length)) s' = .next (afterResponse s' c' rest' r)) ∧
    (∀ (offset length : Int) (r : Response),
      exec (.decW (.present text.length) offset length) s = .next (afterResponse s c rest r) ↔
        exec (.decW (.present text.length) offset length) s' = .next (afterResponse s' c' rest' r))

/-- Under REJECT a window the ZERO decoder accepts decodes to the same bytes when all its elements below `LENGTH - p` are
digits, and fails with FormatError otherwise; a window the ZERO decoder rejects fails with the same error
(41_decode.md R118; decision D15). -/
def Obligations.RejectPolicyAddsOneCause : Prop :=
  ∀ (s s' : State) (c : Command) (rest : List Input) (text : List CodeUnit) (offset length : Nat) (r : Response),
    s.cfg.unknownPolicy = .zero → s'.cfg = { s.cfg with unknownPolicy := .reject } →
    s.inputs = .command c :: rest → s'.inputs = .command c :: rest → c.source = .text text → 0 < length →
    exec (.decW (.present text.length) offset length) s = .next (afterResponse s c rest r) →
    (r.status ≠ 0 →
      exec (.decW (.present text.length) offset length) s' = .next (afterResponse s' c rest r)) ∧
    (r.status = 0 → ¬ NonDigitPresent s.cfg text offset length →
      exec (.decW (.present text.length) offset length) s' = .next (afterResponse s' c rest r)) ∧
    (r.status = 0 → NonDigitPresent s.cfg text offset length →
      exec (.decW (.present text.length) offset length) s' = .next (afterResponse s' c rest formatErrorResponse))

/-- Source elements outside the window do not influence the response except through SRC_LEN (40_encode.md R107;
41_decode.md R132; 20_memory.md R56). -/
def Obligations.OnlyTheWindowInfluencesTheResponse : Prop :=
  ∀ (s s' : State) (c c' : Command) (rest rest' : List Input) (offset length : Int), s'.cfg = s.cfg →
    s.inputs = .command c :: rest → s'.inputs = .command c' :: rest' →
    (∀ (bs bs' : List Byte) (mode : LineBreakMode), c.source = .bytes bs → c'.source = .bytes bs' →
      bs'.length = bs.length → (∀ k, k < length.toNat → bs'[offset.toNat + k]? = bs[offset.toNat + k]?) →
      ∀ r, exec (.encWL (.present bs.length) offset length mode) s = .next (afterResponse s c rest r) ↔
        exec (.encWL (.present bs.length) offset length mode) s' = .next (afterResponse s' c' rest' r)) ∧
    (∀ cs cs' : List CodeUnit, c.source = .text cs → c'.source = .text cs' →
      cs'.length = cs.length → (∀ k, k < length.toNat → cs'[offset.toNat + k]? = cs[offset.toNat + k]?) →
      ∀ r, exec (.decW (.present cs.length) offset length) s = .next (afterResponse s c rest r) ↔
        exec (.decW (.present cs.length) offset length) s' = .next (afterResponse s' c' rest' r))

/-! ### The codec -/

/-- The round trip: for every configuration that meets the constraints of 00_scope.md R9 and under both policies, the
text the encoder answers for a valid window without line breaks is answered by the decoder with the window's bytes;
for `ENC` and `DEC`, `decode(encode(b)) = b` (41_decode.md R129). -/
def Obligations.DecodeOfEncodeIsTheWindow : Prop :=
  ∀ (s : State) (c : Command) (rest : List Input) (bs : List Byte),
    s.inputs = .command c :: rest → c.source = .bytes bs → s.cfg.SymbolsLegal →
    (4 * ((bs.length + 2) / 3) ≤ maxLen →
      ∃ out, exec (.enc (.present bs.length)) s = .next (afterResponse s c rest (okText out)) ∧
        ∀ (s' : State) (c' : Command) (rest' : List Input), s'.cfg = s.cfg → s'.inputs = .command c' :: rest' →
          c'.source = .text out →
          exec (.dec (.present out.length)) s' = .next (afterResponse s' c' rest' (okBytes bs))) ∧
    (∀ offset length : Nat, offset + length ≤ bs.length → 4 * ((length + 2) / 3) ≤ maxLen →
      ∃ out, exec (.encWL (.present bs.length) offset length .none) s = .next (afterResponse s c rest (okText out)) ∧
        ∀ (s' : State) (c' : Command) (rest' : List Input), s'.cfg = s.cfg → s'.inputs = .command c' :: rest' →
          c'.source = .text out →
          exec (.dec (.present out.length)) s' =
            .next (afterResponse s' c' rest' (okBytes ((bs.drop offset).take length))))

/-- Wrapped text does not decode: 58 zero bytes encode with wrapping to 82 code units, and feeding them to `DEC` gives
FormatError, under the default parameters (70_reset_and_hazards.md R167; decisions D9, D10). -/
def Obligations.WrappedTextDoesNotDecode : Prop :=
  ∀ (s s' : State) (c c' : Command) (rest rest' : List Input), s.cfg = defaultCfg → s'.cfg = defaultCfg →
    s.inputs = .command c :: rest → s'.inputs = .command c' :: rest' → c.source = .bytes (List.replicate 58 0) →
    ∃ out, exec (.encL (.present 58) .insertEvery76) s = .next (afterResponse s c rest (okText out)) ∧
      out.length = 82 ∧
      (c'.source = .text out →
        exec (.dec (.present 82)) s' = .next (afterResponse s' c' rest' formatErrorResponse))
end

