-- ==== Sys2Proof/Laws/State.lean ====
section
/-! SUPPORT. One lemma per field and update of the state. -/

namespace Sys2Proof.Machine

variable (s : State) (c : Command) (rest : List Input) (r : Response)

@[simp] theorem State.complete_cfg : (s.complete c rest r).cfg = s.cfg := rfl

@[simp] theorem State.complete_inputs : (s.complete c rest r).inputs = rest := rfl

@[simp] theorem State.complete_completed : (s.complete c rest r).completed = s.completed ++ [⟨c, r⟩] := rfl

@[simp] theorem State.absorbReset_cfg : (s.absorbReset rest).cfg = s.cfg := rfl

@[simp] theorem State.absorbReset_inputs : (s.absorbReset rest).inputs = rest := rfl

@[simp] theorem State.absorbReset_completed : (s.absorbReset rest).completed = s.completed := rfl

@[simp] theorem State.withFetchWord_cfg (nbits w : Nat) : (s.withFetchWord nbits w).cfg = s.cfg := rfl

@[simp] theorem State.withFetchWord_inputs (nbits w : Nat) :
    (s.withFetchWord nbits w).inputs = .command (tableCommand nbits w) :: s.inputs := rfl

@[simp] theorem State.withFetchWord_completed (nbits w : Nat) :
    (s.withFetchWord nbits w).completed = s.completed := rfl

/-- A completed transaction determines the response in it. -/
theorem State.complete_inj {s : State} {c : Command} {rest : List Input} {r r' : Response}
    (h : s.complete c rest r = s.complete c rest r') : r = r' := by
  have := congrArg State.completed h
  simpa using this

end Sys2Proof.Machine
end

