-- ==== Sys2Proof/Laws/Ops.lean ====
section
/-! SUPPORT. What the shared operations can do: one lemma per operation, which the provers cite instead of
unfolding it. -/

namespace Sys2Proof.Machine

/-! ### The transaction -/

/-- Everything `transact` can do when it answers a next state. -/
theorem transact_next_iff {answer : Cfg → Source → Except Refusal Response} {s t : State} :
    transact answer s = .next t ↔
      ∃ c rest r, s.inputs = .command c :: rest ∧ answer s.cfg c.source = .ok r ∧ t = s.complete c rest r := by
  unfold transact
  constructor
  · intro h
    split at h
    · rename_i c rest hin
      split at h
      · rename_i r hr
        exact ⟨c, rest, r, hin, hr, by simpa using h.symm⟩
      · cases h
    · cases h
  · rintro ⟨c, rest, r, hin, hr, rfl⟩
    rw [hin]; simp only [hr]

/-- `transact` on a command it answers. -/
theorem transact_ok {answer : Cfg → Source → Except Refusal Response} {s : State} {c : Command}
    {rest : List Input} {r : Response} (hin : s.inputs = .command c :: rest)
    (hr : answer s.cfg c.source = .ok r) : transact answer s = .next (s.complete c rest r) :=
  transact_next_iff.2 ⟨c, rest, r, hin, hr, rfl⟩

/-- `transact` on a command it refuses. -/
theorem transact_error {answer : Cfg → Source → Except Refusal Response} {s : State} {c : Command}
    {rest : List Input} {why : Refusal} (hin : s.inputs = .command c :: rest)
    (hr : answer s.cfg c.source = .error why) : transact answer s = .refused why := by
  unfold transact
  rw [hin]; simp only [hr]

/-- The response of a transaction is what `answer` gave. -/
theorem transact_complete_iff {answer : Cfg → Source → Except Refusal Response} {s : State} {c : Command}
    {rest : List Input} {r : Response} (hin : s.inputs = .command c :: rest) :
    transact answer s = .next (s.complete c rest r) ↔ answer s.cfg c.source = .ok r := by
  constructor
  · intro h
    obtain ⟨c', rest', r', hin', hr', heq⟩ := transact_next_iff.1 h
    rw [hin] at hin'
    obtain ⟨h1, rfl⟩ := List.cons.inj hin'
    obtain rfl := Input.command.inj h1
    rw [State.complete_inj heq]; exact hr'
  · exact transact_ok hin

/-- When `transact` refuses a command it was given. -/
theorem transact_refused_iff {answer : Cfg → Source → Except Refusal Response} {s : State} {c : Command}
    {rest : List Input} {why : Refusal} (hin : s.inputs = .command c :: rest) :
    transact answer s = .refused why ↔ answer s.cfg c.source = .error why := by
  constructor
  · intro h
    cases hr : answer s.cfg c.source with
    | ok r => rw [transact_ok hin hr] at h; cases h
    | error w => rw [transact_error hin hr] at h; cases h; rfl
  · exact transact_error hin

/-! ### Replies -/

theorem reply_error (e : ErrorKind) : reply (.error e) = .ok (errorResponse e) := rfl

theorem reply_ok {out : Output} (h : out.length ≤ maxLen) : reply (.ok out) = .ok (okResponse out) := by
  simp [reply, deliver, h]

theorem reply_tooLong {out : Output} (h : maxLen < out.length) : reply (.ok out) = .error .outputTooLong := by
  simp [reply, deliver, Nat.not_le.2 h]

/-- Everything `reply` can answer. -/
theorem reply_ok_iff {x : Except ErrorKind Output} {r : Response} :
    reply x = .ok r ↔
      (∃ e, x = .error e ∧ r = errorResponse e) ∨ (∃ out, x = .ok out ∧ out.length ≤ maxLen ∧ r = okResponse out) := by
  cases x with
  | error e => simp [reply, raise, eq_comm]
  | ok out =>
    simp only [reply, deliver]
    split <;> simp_all [eq_comm]

/-- Everything `reply` can refuse. -/
theorem reply_error_iff {x : Except ErrorKind Output} {why : Refusal} :
    reply x = .error why ↔ ∃ out, x = .ok out ∧ maxLen < out.length ∧ why = .outputTooLong := by
  cases x with
  | error e => simp [reply, raise]
  | ok out =>
    simp only [reply, deliver]
    split <;> simp_all [eq_comm]

theorem okResponse_text (out : List CodeUnit) : okResponse (.text out) = okText out := rfl

theorem okResponse_bytes (out : List Byte) : okResponse (.bytes out) = okBytes out := rfl

/-- The state after a response, as the statements write it. -/
theorem complete_eq_afterResponse (s : State) (c : Command) (rest : List Input) (r : Response) :
    s.complete c rest r = afterResponse s c rest r := rfl

theorem errorResponse_invalidArgument : errorResponse .invalidArgument = invalidArgumentResponse := rfl

theorem errorResponse_formatError : errorResponse .formatError = formatErrorResponse := rfl

/-- `STATUS` of a success. -/
theorem okResponse_status (out : Output) : (okResponse out).status = 0 := by
  simp [okResponse, Response.status, statusWord, statusCode, bits]

/-- `STATUS` of an error. -/
theorem errorResponse_status (e : ErrorKind) : (errorResponse e).status = statusCode (some e) := by
  cases e <;> decide

/-- `DST_LEN` of a success whose output is not too long. -/
theorem okResponse_dstLen {out : Output} (h : out.length ≤ maxLen) : (okResponse out).dstLen = out.length := by
  have : out.length < 2147483648 := by simp only [maxLen] at h; omega
  simp only [okResponse, Response.dstLen, lengthWord, bits, BitVec.toNat_ofNat]
  omega

@[simp] theorem okText_status (out : List CodeUnit) : (okText out).status = 0 := okResponse_status (.text out)

@[simp] theorem okBytes_status (out : List Byte) : (okBytes out).status = 0 := okResponse_status (.bytes out)

@[simp] theorem invalidArgumentResponse_status : invalidArgumentResponse.status = 1 := by decide

@[simp] theorem formatErrorResponse_status : formatErrorResponse.status = 2 := by decide

theorem okText_dstLen {out : List CodeUnit} (h : out.length ≤ maxLen) : (okText out).dstLen = out.length :=
  okResponse_dstLen (out := .text out) h

theorem okBytes_dstLen {out : List Byte} (h : out.length ≤ maxLen) : (okBytes out).dstLen = out.length :=
  okResponse_dstLen (out := .bytes out) h

/-- Every response of the machine has the form of 30_encoding.md R75 and R76. -/
theorem okResponse_wellFormed {out : Output} (hne : out ≠ .none) (h : out.length ≤ maxLen) :
    (okResponse out).WellFormed := by
  refine ⟨by simp [okResponse_status], ?_, ?_, okResponse_dstLen h, ?_⟩
  · simp [okResponse, statusWord, statusCode, bits]
  · have : out.length < 2147483648 := by simp only [maxLen] at h; omega
    simp only [okResponse, lengthWord, bits, BitVec.toNat_ofNat]
    omega
  · rw [okResponse_status]; simpa [okResponse] using hne

theorem errorResponse_wellFormed (e : ErrorKind) : (errorResponse e).WellFormed := by
  cases e <;> exact ⟨by decide, by decide, by decide, by decide, by decide⟩

/-! ### The source sequence -/

theorem withBytes_declared {src : SrcOperand} {source : Source} {k : List Byte → Except Refusal Response}
    (h : bytesDeclared src source) : withBytes src source k = k source.bytesOf := by
  cases src <;> cases source <;> simp_all [bytesDeclared, withBytes, Source.bytesOf]

theorem withText_declared {src : SrcOperand} {source : Source} {k : List CodeUnit → Except Refusal Response}
    (h : textDeclared src source) : withText src source k = k source.textOf := by
  cases src <;> cases source <;> simp_all [textDeclared, withText, Source.textOf]

theorem withBytes_mismatch {src : SrcOperand} {source : Source} {k : List Byte → Except Refusal Response}
    (h : ¬ bytesDeclared src source) : withBytes src source k = .error .sourceMismatch := by
  cases src <;> cases source <;> simp_all [bytesDeclared, withBytes]

theorem withText_mismatch {src : SrcOperand} {source : Source} {k : List CodeUnit → Except Refusal Response}
    (h : ¬ textDeclared src source) : withText src source k = .error .sourceMismatch := by
  cases src <;> cases source <;> simp_all [textDeclared, withText]

/-! ### Windows -/

theorem argsValid_present {n : Nat} {offset length : Int} :
    argsValid (.present n) offset length = true ↔ 0 ≤ offset ∧ 0 ≤ length ∧ offset + length ≤ n := by
  simp [argsValid, and_assoc]

theorem argsValid_false_iff {src : SrcOperand} {offset length : Int} :
    argsValid src offset length = false ↔ WindowInvalid src offset length := by
  cases src with
  | absent => simp [argsValid, WindowInvalid]
  | present n =>
    simp only [argsValid, WindowInvalid, Bool.and_eq_false_iff, decide_eq_false_iff_not]
    omega

theorem length_window {α : Type} {src : List α} {offset length : Nat} (h : offset + length ≤ src.length) :
    (window src offset length).length = length := by
  simp [window, slice]; omega

/-- Element `k` of the window is source element `OFFSET + k` (20_memory.md R58). -/
theorem getElem?_window {α : Type} {src : List α} {offset length k : Nat} (h : k < length) :
    (window src offset length)[k]? = memRead src (offset + k) := by
  simp [window, slice, memRead, h]

/-- A window over the whole sequence is the sequence. -/
theorem window_whole {α : Type} (src : List α) : window src 0 src.length = src := by
  simp [window, slice]

end Sys2Proof.Machine
end

