-- ==== Sys2Proof/Laws/Tables.lean ====
section
/-! SUPPORT. The two tables: entries, injectivity, and each is the other's inverse on the alphabet. -/

namespace Sys2Proof.Machine

/-- The spec's defaults meet the constraints of 00_scope.md R9 and R14. -/
theorem defaultCfg_symbolsLegal : defaultCfg.SymbolsLegal := by decide

theorem defaultCfg_legal : defaultCfg.Legal := by
  refine ⟨defaultCfg_symbolsLegal, fun c hc => ?_⟩
  simp only [defaultCfg, List.mem_cons, List.not_mem_nil, or_false] at hc
  rcases hc with rfl | rfl <;> decide

/-- Everything an entry of `ENC_ROM` can be (10_state.md R36). -/
theorem encRom_cases (cfg : Cfg) (i : Digit) :
    (i.toNat ≤ 25 ∧ (encRom cfg i).toNat = 0x41 + i.toNat) ∨
    (26 ≤ i.toNat ∧ i.toNat ≤ 51 ∧ (encRom cfg i).toNat = 0x61 + (i.toNat - 26)) ∨
    (52 ≤ i.toNat ∧ i.toNat ≤ 61 ∧ (encRom cfg i).toNat = 0x30 + (i.toNat - 52)) ∨
    (i.toNat = 62 ∧ encRom cfg i = cfg.sym62) ∨ (i.toNat = 63 ∧ encRom cfg i = cfg.sym63) := by
  have hi : i.toNat < 64 := i.isLt
  unfold encRom
  split
  · left; rw [BitVec.toNat_ofNat]; omega
  split
  · right; left; rw [BitVec.toNat_ofNat]; omega
  split
  · right; right; left; rw [BitVec.toNat_ofNat]; omega
  split
  · exact .inr (.inr (.inr (.inl ⟨‹_›, rfl⟩)))
  · exact .inr (.inr (.inr (.inr ⟨by omega, rfl⟩)))

/-- An entry is a letter, a digit character, or one of the two symbols. -/
theorem encRom_alnum_or_symbol (cfg : Cfg) (i : Digit) :
    isAlnum (encRom cfg i) ∨ encRom cfg i = cfg.sym62 ∨ encRom cfg i = cfg.sym63 := by
  rcases encRom_cases cfg i with h | h | h | h | h
  · left; unfold isAlnum; omega
  · left; unfold isAlnum; omega
  · left; unfold isAlnum; omega
  · exact .inr (.inl h.2)
  · exact .inr (.inr h.2)

theorem isAlnum_ne_pad {c : CodeUnit} (h : isAlnum c) : c ≠ pad := by
  rintro rfl; revert h; decide

theorem isAlnum_lt {c : CodeUnit} (h : isAlnum c) : c.toNat < 128 := by
  unfold isAlnum at h; omega

/-- Every entry is a code unit below 128 (10_state.md R35). -/
theorem encRom_lt {cfg : Cfg} (h : cfg.SymbolsLegal) (i : Digit) : (encRom cfg i).toNat < 128 := by
  rcases encRom_alnum_or_symbol cfg i with ha | ha | ha
  · exact isAlnum_lt ha
  · rw [ha]; exact h.1.1
  · rw [ha]; exact h.2.1.1

/-- No entry equals `PAD` (40_encode.md R98). -/
theorem encRom_ne_pad {cfg : Cfg} (h : cfg.SymbolsLegal) (i : Digit) : encRom cfg i ≠ pad := by
  rcases encRom_alnum_or_symbol cfg i with ha | ha | ha
  · exact isAlnum_ne_pad ha
  · rw [ha]; exact h.1.2.2
  · rw [ha]; exact h.2.1.2.2

/-- `ENC_ROM` is injective (10_state.md R36). -/
theorem encRom_injective {cfg : Cfg} (h : cfg.SymbolsLegal) {i j : Digit} (hij : encRom cfg i = encRom cfg j) :
    i = j := by
  obtain ⟨⟨-, hs62, -⟩, ⟨-, hs63, -⟩, -, -, hne, -⟩ := h
  have hn := congrArg BitVec.toNat hij
  apply BitVec.eq_of_toNat_eq
  unfold isAlnum at hs62 hs63
  rcases encRom_cases cfg i with hi | hi | hi | hi | hi <;> rcases encRom_cases cfg j with hj | hj | hj | hj | hj
  all_goals first
    | omega
    | (rw [hi.2] at hn; omega)
    | (rw [hj.2] at hn; omega)
    | exact absurd (hi.2.symm.trans (hij.trans hj.2)) hne
    | exact absurd (hi.2.symm.trans (hij.trans hj.2)) (Ne.symm hne)

theorem mem_digits (v : Digit) : v ∈ digits := by
  simp only [digits, List.mem_map, List.mem_range]
  exact ⟨v.toNat, v.isLt, by simp⟩

/-- What the search in the alphabet finds. -/
theorem alphabetIndex_encRom {cfg : Cfg} (h : cfg.SymbolsLegal) (v : Digit) : alphabetIndex cfg (encRom cfg v) = some v := by
  unfold alphabetIndex
  cases hf : digits.find? (fun u => encRom cfg u == encRom cfg v) with
  | none => exact absurd (List.find?_eq_none.1 hf v (mem_digits v)) (by simp)
  | some u =>
    have := List.find?_some hf
    have he : encRom cfg u = encRom cfg v := by simpa using this
    rw [encRom_injective h he]

theorem alphabetIndex_eq_none {cfg : Cfg} {c : CodeUnit} :
    alphabetIndex cfg c = none ↔ ∀ v, encRom cfg v ≠ c := by
  simp only [alphabetIndex, List.find?_eq_none, beq_iff_eq]
  exact ⟨fun h v => h v (mem_digits v), fun h v _ => h v⟩

theorem alphabetIndex_some {cfg : Cfg} {c : CodeUnit} {v : Digit} (h : alphabetIndex cfg c = some v) :
    encRom cfg v = c := by
  simpa using List.find?_some h

/-- What the table holds for the code unit `c`. -/
theorem tableEntry_of_some {cfg : Cfg} {c : CodeUnit} {v : Digit} (h : alphabetIndex cfg c = some v) :
    tableEntry cfg c = v := by
  simp [tableEntry, h]

theorem tableEntry_of_none {cfg : Cfg} {c : CodeUnit} (h : alphabetIndex cfg c = none) :
    tableEntry cfg c = if c = cfg.alt62 then 62 else if c = cfg.alt63 then 63 else 0 := by
  simp [tableEntry, h]

/-- The decode table read at a code unit below 128. -/
theorem decRom_setWidth {cfg : Cfg} {c : CodeUnit} (hc : c.toNat < 128) :
    decRom cfg (c.setWidth 7) = tableEntry cfg c := by
  have : (c.setWidth 7).setWidth 16 = c := by
    apply BitVec.eq_of_toNat_eq
    simp only [BitVec.toNat_setWidth]; omega
  rw [decRom, this]

theorem decVal_of_lt {cfg : Cfg} {c : CodeUnit} (hc : c.toNat < 128) : decVal cfg c = tableEntry cfg c := by
  simp only [decVal, hc, if_true, decRom_setWidth hc]

/-- `DecVal(ENC_ROM[v]) = v` (10_state.md R37). -/
theorem decVal_encRom {cfg : Cfg} (h : cfg.SymbolsLegal) (v : Digit) : decVal cfg (encRom cfg v) = v := by
  rw [decVal_of_lt (encRom_lt h v), tableEntry_of_some (alphabetIndex_encRom h v)]

/-- An alternate is no entry of the alphabet (00_scope.md R9). -/
theorem encRom_ne_alt62 {cfg : Cfg} (h : cfg.SymbolsLegal) (v : Digit) : encRom cfg v ≠ cfg.alt62 := by
  intro he
  obtain ⟨-, -, ⟨-, ha, -⟩, -, -, h1, -, h2, -⟩ := h
  rcases encRom_alnum_or_symbol cfg v with hv | hv | hv
  · exact ha (he ▸ hv)
  · exact h1 (hv.symm.trans he)
  · exact h2 (hv.symm.trans he)

theorem encRom_ne_alt63 {cfg : Cfg} (h : cfg.SymbolsLegal) (v : Digit) : encRom cfg v ≠ cfg.alt63 := by
  intro he
  obtain ⟨-, -, -, ⟨-, ha, -⟩, -, -, h1, -, h2, -⟩ := h
  rcases encRom_alnum_or_symbol cfg v with hv | hv | hv
  · exact ha (he ▸ hv)
  · exact h1 (hv.symm.trans he)
  · exact h2 (hv.symm.trans he)

theorem decVal_alt62 {cfg : Cfg} (h : cfg.SymbolsLegal) : decVal cfg cfg.alt62 = 62 := by
  rw [decVal_of_lt h.2.2.1.1, tableEntry_of_none (alphabetIndex_eq_none.2 (encRom_ne_alt62 h))]
  simp

theorem decVal_alt63 {cfg : Cfg} (h : cfg.SymbolsLegal) : decVal cfg cfg.alt63 = 63 := by
  rw [decVal_of_lt h.2.2.2.1.1, tableEntry_of_none (alphabetIndex_eq_none.2 (encRom_ne_alt63 h))]
  simp [Ne.symm h.2.2.2.2.2.2.2.2.2]

/-- A code unit that is no digit has value 0 (41_decode.md R117). -/
theorem decVal_of_not_isDigit {cfg : Cfg} {c : CodeUnit} (h : isDigit cfg c = false) : decVal cfg c = 0 := by
  by_cases hc : c.toNat < 128
  · simp only [isDigit, hc, decide_true, Bool.true_and, Bool.or_eq_false_iff, beq_eq_false_iff_ne] at h
    obtain ⟨⟨h1, h2⟩, h3⟩ := h
    rw [decVal_of_lt hc, tableEntry_of_none (by simpa using h1)]
    simp [h2, h3]
  · simp [decVal, hc]

/-- `IsDigit(c)` (41_decode.md R117). -/
theorem isDigit_iff {cfg : Cfg} {c : CodeUnit} :
    isDigit cfg c = true ↔ c.toNat < 128 ∧ ((∃ v, encRom cfg v = c) ∨ c = cfg.alt62 ∨ c = cfg.alt63) := by
  have : (alphabetIndex cfg c).isSome = true ↔ ∃ v, encRom cfg v = c := by
    cases hx : alphabetIndex cfg c with
    | none => simpa using alphabetIndex_eq_none.1 hx
    | some v => simpa using ⟨v, alphabetIndex_some hx⟩
  simp only [isDigit, Bool.and_eq_true, decide_eq_true_eq, Bool.or_eq_true, beq_iff_eq, this, or_assoc]

theorem isDigit_encRom {cfg : Cfg} (h : cfg.SymbolsLegal) (v : Digit) : isDigit cfg (encRom cfg v) = true :=
  isDigit_iff.2 ⟨encRom_lt h v, .inl ⟨v, rfl⟩⟩

end Sys2Proof.Machine
end

