-- ==== Sys2Proof/Laws/Encode.lean ====
section
/-! SUPPORT. The encoder unit's functions: fields in arithmetic, the body and the wrapped body in index form. -/

namespace Sys2Proof.Machine

/-! ### Fields -/

theorem toNat_field0 (b0 : Byte) : (field0 b0).toNat = b0.toNat / 4 := by
  have := b0.isLt
  simp only [field0, BitVec.extractLsb'_toNat, Nat.shiftRight_eq_div_pow]; omega

theorem toNat_field1 (b0 b1 : Byte) : (field1 b0 b1).toNat = b0.toNat % 4 * 16 + b1.toNat / 16 := by
  have h1 : b1.toNat / 16 % 16 = b1.toNat / 16 := Nat.mod_eq_of_lt (by have := b1.isLt; omega)
  have hlt : b1.toNat / 16 % 16 < 2 ^ 4 := by omega
  simp only [field1, BitVec.toNat_append, BitVec.extractLsb'_toNat, Nat.shiftRight_eq_div_pow]
  norm_num
  rw [← Nat.shiftLeft_add_eq_or_of_lt hlt, h1, Nat.shiftLeft_eq]

theorem toNat_field2 (b1 b2 : Byte) : (field2 b1 b2).toNat = b1.toNat % 16 * 4 + b2.toNat / 64 := by
  have h2 : b2.toNat / 64 % 4 = b2.toNat / 64 := Nat.mod_eq_of_lt (by have := b2.isLt; omega)
  have hlt : b2.toNat / 64 % 4 < 2 ^ 2 := by omega
  simp only [field2, BitVec.toNat_append, BitVec.extractLsb'_toNat, Nat.shiftRight_eq_div_pow]
  norm_num
  rw [← Nat.shiftLeft_add_eq_or_of_lt hlt, h2, Nat.shiftLeft_eq]

theorem toNat_field3 (b2 : Byte) : (field3 b2).toNat = b2.toNat % 64 := by
  simp [field3, BitVec.extractLsb'_toNat]

/-! ### The body -/

theorem length_encodeBody (cfg : Cfg) (w : List Byte) :
    (encodeBody cfg w).length = 4 * ((w.length + 2) / 3) := by
  induction w using encodeBody.induct with
  | case1 => rfl
  | case2 b0 => simp [encodeBody]
  | case3 b0 b1 => simp [encodeBody]
  | case4 b0 b1 b2 rest ih => simp only [encodeBody, List.length_cons, ih]; omega

/-- Every element of a body is an `ENC_ROM` entry or `PAD` (40_encode.md R103). -/
theorem mem_encodeBody {cfg : Cfg} {w : List Byte} {c : CodeUnit} (h : c ∈ encodeBody cfg w) :
    (∃ i, c = encRom cfg i) ∨ c = pad := by
  induction w using encodeBody.induct with
  | case1 => cases h
  | case2 b0 => simp only [encodeBody, List.mem_cons, List.not_mem_nil, or_false] at h; aesop
  | case3 b0 b1 => simp only [encodeBody, List.mem_cons, List.not_mem_nil, or_false] at h; aesop
  | case4 b0 b1 b2 rest ih => simp only [encodeBody, List.mem_cons] at h; aesop

/-- A byte of a group read in the window is the byte read in the source. -/
theorem groupByte_window {src : List Byte} {offset length g k : Nat} :
    groupByte (window src offset length) 0 length g k = groupByte src offset length g k := by
  unfold groupByte groupSize
  split
  · have h : 3 * g + k < length := by omega
    have hw := getElem?_window (src := src) (offset := offset) h
    simp only [memRead, Nat.zero_add] at hw ⊢
    rw [hw, Nat.add_assoc]
  · rfl

theorem bodyChar_window {cfg : Cfg} {src : List Byte} {offset length g j : Nat} :
    bodyChar cfg (window src offset length) 0 length g j = bodyChar cfg src offset length g j := by
  simp only [bodyChar, groupField, groupByte_window]

/-- The groups after the first are the groups of the rest. -/
theorem groupByte_succ {b0 b1 b2 : Byte} {rest : List Byte} {g k : Nat} :
    groupByte (b0 :: b1 :: b2 :: rest) 0 (rest.length + 3) (g + 1) k = groupByte rest 0 rest.length g k := by
  have e1 : groupSize (rest.length + 3) (g + 1) = groupSize rest.length g := by unfold groupSize; omega
  have e2 : 0 + 3 * (g + 1) + k = (0 + 3 * g + k) + 3 := by omega
  simp only [groupByte, e1, memRead, e2, List.getElem?_cons_succ]

theorem bodyChar_succ {cfg : Cfg} {b0 b1 b2 : Byte} {rest : List Byte} {g j : Nat} :
    bodyChar cfg (b0 :: b1 :: b2 :: rest) 0 (rest.length + 3) (g + 1) j = bodyChar cfg rest 0 rest.length g j := by
  have e1 : groupSize (rest.length + 3) (g + 1) = groupSize rest.length g := by unfold groupSize; omega
  simp only [bodyChar, groupField, groupByte_succ, e1]

theorem ofNat_eq_of_toNat {i : Digit} {n : Nat} (h : i.toNat = n) : BitVec.ofNat 6 n = i := by
  subst h; simp

/-- The first quartet of a body. -/
theorem bodyChar_zero {cfg : Cfg} {w : List Byte} (hw : w ≠ []) {j : Nat} (hj : j < 4) :
    (encodeBody cfg w)[j]? = some (bodyChar cfg w 0 w.length 0 j) := by
  match w, hw with
  | [b0], _ =>
    interval_cases j <;>
      simp [encodeBody, bodyChar, groupSize, groupField, groupByte, memRead]
    · rw [ofNat_eq_of_toNat (toNat_field0 b0)]
    · rw [ofNat_eq_of_toNat (i := field1 b0 0) (by rw [toNat_field1]; simp)]; rfl
  | [b0, b1], _ =>
    interval_cases j <;>
      simp [encodeBody, bodyChar, groupSize, groupField, groupByte, memRead]
    · rw [ofNat_eq_of_toNat (toNat_field0 b0)]
    · rw [ofNat_eq_of_toNat (toNat_field1 b0 b1)]
    · rw [ofNat_eq_of_toNat (i := field2 b1 0) (by rw [toNat_field2]; simp)]; rfl
  | b0 :: b1 :: b2 :: rest, _ =>
    have hg : groupSize (rest.length + 1 + 1 + 1) 0 = 3 := by unfold groupSize; omega
    interval_cases j <;>
      simp [encodeBody, bodyChar, hg, groupField, groupByte, memRead]
    · rw [ofNat_eq_of_toNat (toNat_field0 b0)]
    · rw [ofNat_eq_of_toNat (toNat_field1 b0 b1)]
    · rw [ofNat_eq_of_toNat (toNat_field2 b1 b2)]
    · rw [ofNat_eq_of_toNat (toNat_field3 b2)]

/-- The body in index form, over its own window. -/
theorem getElem?_encodeBody {cfg : Cfg} {w : List Byte} {g : Nat} (hg : g < (w.length + 2) / 3) {j : Nat}
    (hj : j < 4) : (encodeBody cfg w)[4 * g + j]? = some (bodyChar cfg w 0 w.length g j) := by
  induction w using encodeBody.induct generalizing g with
  | case1 => simp at hg
  | case2 b0 =>
    obtain rfl : g = 0 := by simp at hg; omega
    simpa using bodyChar_zero (cfg := cfg) (w := [b0]) (by simp) hj
  | case3 b0 b1 =>
    obtain rfl : g = 0 := by simp at hg; omega
    simpa using bodyChar_zero (cfg := cfg) (w := [b0, b1]) (by simp) hj
  | case4 b0 b1 b2 rest ih =>
    cases g with
    | zero => simpa using bodyChar_zero (cfg := cfg) (w := b0 :: b1 :: b2 :: rest) (by simp) hj
    | succ g =>
      have hg' : g < (rest.length + 2) / 3 := by simp only [List.length_cons] at hg; omega
      have e : 4 * (g + 1) + j = (4 * g + j) + 4 := by omega
      rw [e]
      simp only [encodeBody, List.getElem?_cons_succ, ih hg']
      exact congrArg some bodyChar_succ.symm

/-- The body of a window, in the index form of 40_encode.md R91. -/
theorem isBody_encodeBody {cfg : Cfg} {src : List Byte} {offset length : Nat}
    (h : offset + length ≤ src.length) :
    IsBody cfg src offset length (encodeBody cfg (window src offset length)) := by
  have hl := length_window h
  refine ⟨by rw [length_encodeBody, hl], fun g hg j hj => ?_⟩
  rw [getElem?_encodeBody (by rw [hl]; exact hg) hj, hl, bodyChar_window]

/-- Two texts with the same index form are equal. -/
theorem isBody_unique {cfg : Cfg} {src : List Byte} {offset length : Nat} {out out' : List CodeUnit}
    (h : IsBody cfg src offset length out) (h' : IsBody cfg src offset length out') : out = out' := by
  apply List.ext_getElem?
  intro k
  by_cases hk : k < 4 * ((length + 2) / 3)
  · have e : 4 * (k / 4) + k % 4 = k := Nat.div_add_mod k 4
    have h1 := h.2 (k / 4) (by omega) (k % 4) (by omega)
    have h2 := h'.2 (k / 4) (by omega) (k % 4) (by omega)
    rw [e] at h1 h2
    rw [h1, h2]
  · rw [List.getElem?_eq_none (by rw [h.1]; omega), List.getElem?_eq_none (by rw [h'.1]; omega)]

/-! ### Line wrap -/

/-- Chunks of one length, read by index. -/
theorem getElem?_flatMap_range {α : Type} {f : Nat → List α} {n j L t : Nat}
    (hl : ∀ i, i < j → (f i).length = L) (hj : j < n) (ht : t < (f j).length) :
    ((List.range n).flatMap f)[j * L + t]? = (f j)[t]? := by
  induction j generalizing n f with
  | zero =>
    obtain ⟨m, rfl⟩ : ∃ m, n = m + 1 := ⟨n - 1, by omega⟩
    rw [List.range_succ_eq_map, List.flatMap_cons, Nat.zero_mul, Nat.zero_add, List.getElem?_append_left ht]
  | succ j ih =>
    obtain ⟨m, rfl⟩ : ∃ m, n = m + 1 := ⟨n - 1, by omega⟩
    have h0 : (f 0).length = L := hl 0 (by omega)
    have e : (j + 1) * L + t - (f 0).length = j * L + t := by rw [h0, Nat.succ_mul]; omega
    rw [List.range_succ_eq_map, List.flatMap_cons,
      List.getElem?_append_right (by rw [h0, Nat.succ_mul]; omega), e, List.flatMap_map]
    exact ih (f := fun a => f (a + 1)) (fun i hi => hl (i + 1) (by omega)) (by omega) ht

/-- Chunks of one length but for the last, added up. -/
theorem length_flatMap_range_succ {α : Type} {f : Nat → List α} {n L : Nat}
    (hl : ∀ i, i < n → (f i).length = L) :
    ((List.range (n + 1)).flatMap f).length = n * L + (f n).length := by
  induction n generalizing f with
  | zero => simp
  | succ n ih =>
    rw [List.range_succ_eq_map, List.flatMap_cons, List.length_append, List.flatMap_map,
      ih (f := fun a => f (a + 1)) (fun i hi => hl (i + 1) (by omega)), hl 0 (by omega), Nat.succ_mul]
    omega

theorem getElem?_slice {α : Type} {s : List α} {i j k : Nat} (h : i + k < j) : (slice s i j)[k]? = s[i + k]? := by
  have : k < j - i := by omega
  simp [slice, this]

theorem length_slice {α : Type} {s : List α} {i j : Nat} (hj : j ≤ s.length) : (slice s i j).length = j - i := by
  simp [slice]; omega

/-- Whether a break follows line `j` (40_encode.md R99). -/
abbrev breakAfter (cfg : Cfg) (lines j : Nat) : Prop := j + 1 < lines ∨ cfg.lbAtEnd = true

theorem length_line {body : List CodeUnit} {j : Nat} :
    (slice body (76 * j) (min (76 * (j + 1)) body.length)).length = min (76 * (j + 1)) body.length - 76 * j :=
  length_slice (Nat.min_le_right _ _)

theorem length_wrapLine {cfg : Cfg} {body : List CodeUnit} {lines j : Nat} :
    (wrapLine cfg body lines j).length =
      min (76 * (j + 1)) body.length - 76 * j + if breakAfter cfg lines j then cfg.lineBreak.length else 0 := by
  rw [wrapLine, lineLen, List.length_append, length_line]
  split <;> rfl

/-- A character of a line is a character of the body. -/
theorem getElem?_wrapLine_char {cfg : Cfg} {body : List CodeUnit} {lines j t : Nat}
    (h : 76 * j + t < min (76 * (j + 1)) body.length) :
    (wrapLine cfg body lines j)[t]? = body[76 * j + t]? := by
  rw [wrapLine, lineLen, List.getElem?_append_left (by rw [length_line]; omega), getElem?_slice h]

/-- The break after a line follows its last character. -/
theorem getElem?_wrapLine_break {cfg : Cfg} {body : List CodeUnit} {lines j t : Nat}
    (h : breakAfter cfg lines j) :
    (wrapLine cfg body lines j)[min (76 * (j + 1)) body.length - 76 * j + t]? = cfg.lineBreak[t]? := by
  rw [wrapLine, if_pos h, lineLen, List.getElem?_append_right (by rw [length_line]; omega), length_line]
  congr 1; omega

/-- The empty body stays empty. -/
theorem lineWrap_nil (cfg : Cfg) : lineWrap cfg [] = [] := rfl

/-- The lines of a body that is not empty: `n` full ones and a last one of 1 to 76 characters. -/
theorem lineWrap_eq {cfg : Cfg} {body : List CodeUnit} {n : Nat} (hlow : 76 * n < body.length)
    (hhigh : body.length ≤ 76 * (n + 1)) :
    lineWrap cfg body = (List.range (n + 1)).flatMap (wrapLine cfg body (n + 1)) := by
  have hn : (body.length + 75) / 76 = n + 1 := by omega
  simp only [lineWrap, lineLen, Nat.reduceSub, hn]

/-- A line that is not the last holds 76 characters and a break. -/
theorem length_wrapLine_full {cfg : Cfg} {body : List CodeUnit} {n j : Nat} (hlow : 76 * n < body.length)
    (hj : j < n) : (wrapLine cfg body (n + 1) j).length = 76 + cfg.lineBreak.length := by
  rw [length_wrapLine, if_pos (.inl (by omega)), Nat.min_eq_left (by omega)]
  omega

theorem breakCount_eq {cfg : Cfg} {m n : Nat} (hlow : 76 * n < m) (hhigh : m ≤ 76 * (n + 1)) :
    breakCount cfg m = n + if cfg.lbAtEnd then 1 else 0 := by
  unfold breakCount
  split <;> omega

/-- The wrapped body has the index map of 40_encode.md R100. -/
theorem isWrapped_lineWrap (cfg : Cfg) (body : List CodeUnit) : IsWrapped cfg body (lineWrap cfg body) := by
  by_cases hM : body.length = 0
  · obtain rfl := List.length_eq_zero_iff.1 hM
    have h0 : breakCount cfg 0 = 0 := by unfold breakCount; split <;> rfl
    exact ⟨by simp [lineWrap_nil, h0], by simp, by simp [h0]⟩
  obtain ⟨n, hlow, hhigh⟩ : ∃ n, 76 * n < body.length ∧ body.length ≤ 76 * (n + 1) :=
    ⟨(body.length - 1) / 76, by omega, by omega⟩
  have hfull : ∀ i, i < n → (wrapLine cfg body (n + 1) i).length = 76 + cfg.lineBreak.length :=
    fun i hi => length_wrapLine_full hlow hi
  have hn := breakCount_eq (cfg := cfg) hlow hhigh
  rw [lineWrap_eq hlow hhigh]
  refine ⟨?_, fun k hk => ?_, fun j hj t ht => ?_⟩
  · rw [length_flatMap_range_succ hfull, length_wrapLine, Nat.min_eq_right hhigh, hn]
    have e : (n + 1 < n + 1 ∨ cfg.lbAtEnd = true) ↔ cfg.lbAtEnd = true := by simp
    simp only [e, Nat.mul_add, Nat.add_mul]
    split <;> omega
  · have hd : 76 * (k / 76) + k % 76 = k := Nat.div_add_mod k 76
    have e : k + k / 76 * cfg.lineBreak.length = k / 76 * (76 + cfg.lineBreak.length) + k % 76 := by
      rw [Nat.mul_add]; omega
    have hin : 76 * (k / 76) + k % 76 < min (76 * (k / 76 + 1)) body.length := by omega
    rw [e, getElem?_flatMap_range (fun i hi => hfull i (by omega)) (by omega) (by rw [length_wrapLine]; omega),
      getElem?_wrapLine_char hin, hd]
  · have hjn : j ≤ n ∧ breakAfter cfg (n + 1) j := by
      rw [hn] at hj
      split at hj
      · exact ⟨by omega, .inr ‹_›⟩
      · exact ⟨by omega, .inl (by omega)⟩
    have e : min (76 * (j + 1)) body.length + j * cfg.lineBreak.length + t =
        j * (76 + cfg.lineBreak.length) + (min (76 * (j + 1)) body.length - 76 * j + t) := by
      rw [Nat.mul_add j]; omega
    rw [e, getElem?_flatMap_range (fun i hi => hfull i (by omega)) (by omega)
      (by rw [length_wrapLine, if_pos hjn.2]; omega), getElem?_wrapLine_break hjn.2]

/-- The length of what the encoder answers (40_encode.md R97, R100). -/
theorem length_applyMode {cfg : Cfg} {w : List Byte} {mode : LineBreakMode} :
    (applyMode cfg (encodeBody cfg w) mode).length = encodedLength cfg mode w.length := by
  cases mode with
  | none => exact length_encodeBody cfg w
  | insertEvery76 =>
    simp only [applyMode, encodedLength]
    rw [(isWrapped_lineWrap cfg _).1, length_encodeBody]

/-- Every element of what the encoder answers is an `ENC_ROM` entry, `PAD`, or part of a break that was asked for
(40_encode.md R103). -/
theorem mem_applyMode {cfg : Cfg} {w : List Byte} {mode : LineBreakMode} {c : CodeUnit}
    (h : c ∈ applyMode cfg (encodeBody cfg w) mode) :
    (∃ i, c = encRom cfg i) ∨ c = pad ∨ (mode = .insertEvery76 ∧ c ∈ cfg.lineBreak) := by
  cases mode with
  | none => rcases mem_encodeBody h with h | h <;> simp [h]
  | insertEvery76 =>
    simp only [applyMode, lineWrap, List.mem_flatMap, wrapLine, List.mem_append] at h
    obtain ⟨j, -, h | h⟩ := h
    · rcases mem_encodeBody (List.mem_of_mem_drop (List.mem_of_mem_take h)) with h | h <;> simp [h]
    · split at h
      · exact .inr (.inr ⟨rfl, h⟩)
      · cases h

/-- What `EncodeCore` answers to valid operands (40_encode.md R91): the empty window is no special case. -/
theorem encodeCore_valid {cfg : Cfg} {src : SrcOperand} {bytes : List Byte} {offset length : Int}
    {mode : LineBreakMode} (h : argsValid src offset length = true) :
    encodeCore cfg src bytes offset length mode =
      .ok (applyMode cfg (encodeBody cfg (window bytes offset length)) mode) := by
  rw [encodeCore, if_neg (by simp [h])]
  split
  · have hw : window bytes offset length = [] := by simp [window, slice, *]
    rw [hw]; cases mode <;> simp [applyMode, encodeBody, lineWrap_nil]
  · rfl

theorem encodeCore_invalid {cfg : Cfg} {src : SrcOperand} {bytes : List Byte} {offset length : Int}
    {mode : LineBreakMode} (h : argsValid src offset length = false) :
    encodeCore cfg src bytes offset length mode = .error .invalidArgument := by
  simp [encodeCore, h]

/-- Everything the encoder unit can answer. -/
theorem encodeReply_ok_iff {cfg : Cfg} {src : SrcOperand} {bytes : List Byte} {offset length : Int}
    {mode : LineBreakMode} {r : Response} :
    encodeReply cfg src bytes offset length mode = .ok r ↔
      (argsValid src offset length = false ∧ r = invalidArgumentResponse) ∨
      (argsValid src offset length = true ∧
        (applyMode cfg (encodeBody cfg (window bytes offset length)) mode).length ≤ maxLen ∧
        r = okText (applyMode cfg (encodeBody cfg (window bytes offset length)) mode)) := by
  cases h : argsValid src offset length with
  | false =>
    simp [encodeReply, encodeCore_invalid h, Except.map, reply_ok_iff, errorResponse_invalidArgument]
  | true =>
    simp [encodeReply, encodeCore_valid h, Except.map, reply_ok_iff, okResponse_text, Output.length]

end Sys2Proof.Machine
end

