-- ==== Sys2Proof/Laws/Decode.lean ====
section
/-! SUPPORT. The decoder unit's functions: bytes in arithmetic, the pads, the unpacked bytes in index form, and that
the decoder undoes the encoder's body. -/

namespace Sys2Proof.Machine

/-! ### Bytes -/

theorem toNat_byte0 (d0 d1 : Digit) : (byte0 d0 d1).toNat = d0.toNat * 4 + d1.toNat / 16 := by
  have h0 := d0.isLt
  have h1 := d1.isLt
  have hlt : d1.toNat >>> 4 < 2 ^ 2 := by rw [Nat.shiftRight_eq_div_pow]; omega
  simp only [byte0, BitVec.toNat_ofNat]
  rw [← Nat.shiftLeft_add_eq_or_of_lt hlt, Nat.shiftLeft_eq, Nat.shiftRight_eq_div_pow]
  omega

theorem toNat_byte1 (d1 d2 : Digit) : (byte1 d1 d2).toNat = d1.toNat % 16 * 16 + d2.toNat / 4 := by
  have h1 := d1.isLt
  have h2 := d2.isLt
  have hlt : d2.toNat >>> 2 < 2 ^ 4 := by rw [Nat.shiftRight_eq_div_pow]; omega
  simp only [byte1, BitVec.toNat_ofNat]
  rw [← Nat.shiftLeft_add_eq_or_of_lt hlt, Nat.shiftLeft_eq, Nat.shiftRight_eq_div_pow]
  omega

theorem toNat_byte2 (d2 d3 : Digit) : (byte2 d2 d3).toNat = d2.toNat % 4 * 64 + d3.toNat := by
  have h2 := d2.isLt
  have h3 : d3.toNat < 2 ^ 6 := d3.isLt
  simp only [byte2, BitVec.toNat_ofNat]
  rw [← Nat.shiftLeft_add_eq_or_of_lt h3, Nat.shiftLeft_eq]
  omega

/-- The decoder's bytes invert the encoder's fields bit for bit (41_decode.md R129). -/
theorem byte0_fields (b0 b1 : Byte) : byte0 (field0 b0) (field1 b0 b1) = b0 := by
  have := b0.isLt; have := b1.isLt
  apply BitVec.eq_of_toNat_eq
  rw [toNat_byte0, toNat_field0, toNat_field1]; omega

theorem byte1_fields (b0 b1 b2 : Byte) : byte1 (field1 b0 b1) (field2 b1 b2) = b1 := by
  have := b0.isLt; have := b1.isLt; have := b2.isLt
  apply BitVec.eq_of_toNat_eq
  rw [toNat_byte1, toNat_field1, toNat_field2]; omega

theorem byte2_fields (b1 b2 : Byte) : byte2 (field2 b1 b2) (field3 b2) = b2 := by
  have := b1.isLt; have := b2.isLt
  apply BitVec.eq_of_toNat_eq
  rw [toNat_byte2, toNat_field2, toNat_field3]; omega

/-! ### Pads -/

theorem trailingPads_le (w : List CodeUnit) : trailingPads w ≤ 2 := by
  unfold trailingPads; split <;> [skip; split] <;> omega

/-- An element of the window read in the source text. -/
theorem windowUnit_window {text : List CodeUnit} {offset length i : Nat} (h : i < length) :
    windowUnit (window text offset length) 0 i = windowUnit text offset i := by
  have hw := getElem?_window (src := text) (offset := offset) h
  simp only [windowUnit, memRead, Nat.zero_add] at hw ⊢
  rw [hw]

theorem getElem?_eq_windowUnit {w : List CodeUnit} {i : Nat} (h : i < w.length) :
    w[i]? = some (windowUnit w 0 i) := by
  simp [windowUnit, memRead, h]

/-- The trailing pads in the index form of 41_decode.md R111. -/
theorem trailingPads_eq_padRun {w : List CodeUnit} (h : 2 ≤ w.length) :
    trailingPads w = padRun w 0 w.length := by
  simp only [trailingPads, padRun, getElem?_eq_windowUnit (show w.length - 1 < w.length by omega),
    getElem?_eq_windowUnit (show w.length - 2 < w.length by omega), ne_eq, Option.some.injEq]

theorem padRun_window {text : List CodeUnit} {offset length : Nat} (h : 2 ≤ length) :
    padRun (window text offset length) 0 length = padRun text offset length := by
  simp only [padRun, windowUnit_window (text := text) (offset := offset) (show length - 1 < length by omega),
    windowUnit_window (text := text) (offset := offset) (show length - 2 < length by omega)]

theorem trailingPads_window {text : List CodeUnit} {offset length : Nat} (hw : offset + length ≤ text.length)
    (h : 2 ≤ length) : trailingPads (window text offset length) = padRun text offset length := by
  have hl := length_window hw
  rw [trailingPads_eq_padRun (by rw [hl]; exact h), hl, padRun_window h]

/-- The elements a digit must stand in are those at an index below `LENGTH - p`. -/
theorem mem_digitPart_window {text : List CodeUnit} {offset length : Nat} {c : CodeUnit}
    (hw : offset + length ≤ text.length) (h : 2 ≤ length) :
    c ∈ digitPart (window text offset length) ↔
      ∃ i, i < length - padRun text offset length ∧ windowUnit text offset i = c := by
  have hl := length_window hw
  simp only [digitPart, hl, trailingPads_window hw h, List.mem_iff_getElem?, List.getElem?_take]
  constructor
  · rintro ⟨i, hi⟩
    split at hi
    · refine ⟨i, ‹_›, ?_⟩
      rw [getElem?_eq_windowUnit (by rw [hl]; omega), windowUnit_window (by omega)] at hi
      exact Option.some.inj hi
    · cases hi
  · rintro ⟨i, hi, rfl⟩
    refine ⟨i, ?_⟩
    rw [if_pos hi, getElem?_eq_windowUnit (by rw [hl]; omega), windowUnit_window (by omega)]

theorem pad_mem_digitPart {text : List CodeUnit} {offset length : Nat} (hw : offset + length ≤ text.length)
    (h : 2 ≤ length) :
    pad ∈ digitPart (window text offset length) ↔ PadMisplaced text offset length :=
  mem_digitPart_window hw h

theorem any_not_isDigit {cfg : Cfg} {text : List CodeUnit} {offset length : Nat}
    (hw : offset + length ≤ text.length) (h : 2 ≤ length) :
    (digitPart (window text offset length)).any (fun c => !isDigit cfg c) = true ↔
      NonDigitPresent cfg text offset length := by
  simp only [List.any_eq_true, mem_digitPart_window hw h, Bool.not_eq_true', NonDigitPresent]
  constructor
  · rintro ⟨_, ⟨i, hi, rfl⟩, hd⟩; exact ⟨i, hi, hd⟩
  · rintro ⟨i, hi, hd⟩; exact ⟨_, ⟨i, hi, rfl⟩, hd⟩

/-! ### Unpacking -/

/-- A quartet that is not the last one. -/
theorem decodeQuartets_cons {cfg : Cfg} {p : Nat} {c0 c1 c2 c3 : CodeUnit} {rest : List CodeUnit}
    (h : rest ≠ []) :
    decodeQuartets cfg p (c0 :: c1 :: c2 :: c3 :: rest) =
      quartetBytes cfg c0 c1 c2 c3 ++ decodeQuartets cfg p rest := by
  cases rest with
  | nil => exact absurd rfl h
  | cons c4 rest => rfl

/-- The bytes a window of quartets yields (41_decode.md R121). -/
theorem length_decodeQuartets {cfg : Cfg} {p : Nat} (hp : p ≤ 3) {w : List CodeUnit} {n : Nat}
    (hw : w.length = 4 * (n + 1)) : (decodeQuartets cfg p w).length = 3 * (n + 1) - p := by
  induction n generalizing w with
  | zero =>
    match w, hw with
    | [c0, c1, c2, c3], _ => simp [decodeQuartets, quartetBytes]
  | succ n ih =>
    match w, hw with
    | c0 :: c1 :: c2 :: c3 :: rest, hw =>
      have hr : rest.length = 4 * (n + 1) := by simp only [List.length_cons] at hw; omega
      rw [decodeQuartets_cons (by rintro rfl; simp at hr), List.length_append, ih hr]
      simp only [quartetBytes, List.length_cons, List.length_nil]
      omega

/-- The three bytes of a quartet, by index. -/
theorem getElem?_quartetBytes {cfg : Cfg} {c0 c1 c2 c3 : CodeUnit} {rest : List CodeUnit} {k : Nat} (hk : k < 3) :
    (quartetBytes cfg c0 c1 c2 c3)[k]? =
      some (BitVec.ofNat 8 (quartetByte cfg (c0 :: c1 :: c2 :: c3 :: rest) 0 0 k)) := by
  have e : ∀ {b : Byte} {n : Nat}, b.toNat = n → BitVec.ofNat 8 n = b := by rintro b _ rfl; simp
  interval_cases k <;>
    simp only [quartetBytes, quartetByte, quartetDigit, windowUnit, memRead, List.getElem?_cons_zero,
      List.getElem?_cons_succ, Option.getD_some, Nat.mul_zero, Nat.zero_add, Option.some.injEq] <;>
    symm
  · exact e (toNat_byte0 _ _)
  · exact e (toNat_byte1 _ _)
  · exact e (toNat_byte2 _ _)

/-- The quartets after the first are the quartets of the rest. -/
theorem quartetByte_succ {cfg : Cfg} {c0 c1 c2 c3 : CodeUnit} {rest : List CodeUnit} {q k : Nat} :
    quartetByte cfg (c0 :: c1 :: c2 :: c3 :: rest) 0 (q + 1) k = quartetByte cfg rest 0 q k := by
  have e : ∀ j, 0 + (4 * (q + 1) + j) = (0 + (4 * q + j)) + 4 := by intro j; omega
  simp only [quartetByte, quartetDigit, windowUnit, memRead, e, List.getElem?_cons_succ]

/-- The unpacked bytes in index form, over their own window. -/
theorem getElem?_decodeQuartets {cfg : Cfg} {p : Nat} (hp : p ≤ 3) {w : List CodeUnit} {n : Nat}
    (hw : w.length = 4 * (n + 1)) {q k : Nat} (hk : k < 3) (hqk : 3 * q + k < 3 * (n + 1) - p) :
    (decodeQuartets cfg p w)[3 * q + k]? = some (BitVec.ofNat 8 (quartetByte cfg w 0 q k)) := by
  induction n generalizing w q with
  | zero =>
    match w, hw with
    | [c0, c1, c2, c3], _ =>
      obtain rfl : q = 0 := by omega
      have hkp : k < 3 - p := by omega
      simp only [decodeQuartets, Nat.mul_zero, Nat.zero_add, List.getElem?_take, hkp, if_true]
      exact getElem?_quartetBytes hk
  | succ n ih =>
    match w, hw with
    | c0 :: c1 :: c2 :: c3 :: rest, hw =>
      have hr : rest.length = 4 * (n + 1) := by simp only [List.length_cons] at hw; omega
      rw [decodeQuartets_cons (by rintro rfl; simp at hr)]
      have h3 : (quartetBytes cfg c0 c1 c2 c3).length = 3 := rfl
      cases q with
      | zero =>
        rw [List.getElem?_append_left (by rw [h3]; omega)]
        simp only [Nat.mul_zero, Nat.zero_add]
        exact getElem?_quartetBytes hk
      | succ q =>
        rw [List.getElem?_append_right (by rw [h3]; omega), h3,
          show 3 * (q + 1) + k - 3 = 3 * q + k by omega, ih hr (by omega), quartetByte_succ]

theorem quartetByte_window {cfg : Cfg} {text : List CodeUnit} {offset length q k : Nat} (h : 4 * q + 3 < length) :
    quartetByte cfg (window text offset length) 0 q k = quartetByte cfg text offset q k := by
  have e : ∀ j, j ≤ 3 → quartetDigit cfg (window text offset length) 0 q j = quartetDigit cfg text offset q j := by
    intro j hj
    simp only [quartetDigit, windowUnit_window (text := text) (offset := offset)
      (show 4 * q + j < length by omega)]
  match k with
  | 0 => simp only [quartetByte, e 0 (by omega), e 1 (by omega)]
  | 1 => simp only [quartetByte, e 1 (by omega), e 2 (by omega)]
  | k + 2 => simp only [quartetByte, e 2 (by omega), e 3 (by omega)]

/-- The unpacked bytes of a window have the index form of 41_decode.md R111. -/
theorem isDecoding_decodeQuartets {cfg : Cfg} {text : List CodeUnit} {offset length : Nat}
    (hw : offset + length ≤ text.length) (h4 : length % 4 = 0) (h0 : 0 < length) :
    IsDecoding cfg text offset length
      (decodeQuartets cfg (trailingPads (window text offset length)) (window text offset length)) := by
  obtain ⟨n, hn⟩ : ∃ n, length = 4 * (n + 1) := ⟨length / 4 - 1, by omega⟩
  have hl := (length_window hw).trans hn
  have hp := trailingPads_le (window text offset length)
  have hlen := length_decodeQuartets (cfg := cfg) (p := trailingPads (window text offset length)) (by omega) hl
  refine ⟨?_, fun q k hk hqk => ?_⟩
  · rw [hlen, trailingPads_window hw (by omega)]; omega
  · rw [hlen] at hqk
    rw [getElem?_decodeQuartets (by omega) hl hk hqk, quartetByte_window (by omega)]

/-! ### What `DecodeCore` answers -/

theorem decodeCore_invalid {cfg : Cfg} {src : SrcOperand} {text : List CodeUnit} {offset length : Int}
    (h : argsValid src offset length = false) :
    decodeCore cfg src text offset length = .error .invalidArgument := by
  simp [decodeCore, h]

theorem decodeCore_not_multiple {cfg : Cfg} {src : SrcOperand} {text : List CodeUnit} {offset length : Int}
    (h : argsValid src offset length = true) (h4 : length % 4 ≠ 0) :
    decodeCore cfg src text offset length = .error .formatError := by
  simp [decodeCore, h, h4]

theorem decodeCore_empty {cfg : Cfg} {src : SrcOperand} {text : List CodeUnit} {offset : Int}
    (h : argsValid src offset 0 = true) : decodeCore cfg src text offset 0 = .ok [] := by
  simp [decodeCore, h]

theorem decodeCore_window {cfg : Cfg} {src : SrcOperand} {text : List CodeUnit} {offset length : Int}
    (h : argsValid src offset length = true) (h4 : length % 4 = 0) (h0 : length ≠ 0) :
    decodeCore cfg src text offset length = decodeWindow cfg (window text offset length) := by
  simp [decodeCore, h, h4, h0]

/-- Everything `decodeWindow` can answer. -/
theorem decodeWindow_eq_ok {cfg : Cfg} {w : List CodeUnit} {out : List Byte} :
    decodeWindow cfg w = .ok out ↔
      pad ∉ digitPart w ∧
      ¬(cfg.unknownPolicy = .reject ∧ (digitPart w).any (fun c => !isDigit cfg c) = true) ∧
      out = decodeQuartets cfg (trailingPads w) w := by
  unfold decodeWindow
  split
  · simp [*]
  · split
    · rename_i h; simp [h]
    · rename_i h1 h2
      simp only [Except.ok.injEq, h1, h2, not_false_eq_true, true_and]
      exact eq_comm

theorem decodeWindow_eq_error {cfg : Cfg} {w : List CodeUnit} {e : ErrorKind} :
    decodeWindow cfg w = .error e ↔
      e = .formatError ∧ (pad ∈ digitPart w ∨
        (cfg.unknownPolicy = .reject ∧ (digitPart w).any (fun c => !isDigit cfg c) = true)) := by
  unfold decodeWindow
  split
  · rename_i h; simp only [h, true_or, and_true, Except.error.injEq]; exact eq_comm
  · split
    · rename_i h; simp only [h, and_self, or_true, and_true, Except.error.injEq]; exact eq_comm
    · rename_i h1 h2; simp only [h1, h2, or_self, and_false, reduceCtorEq]

theorem decodeReply_error {cfg : Cfg} {src : SrcOperand} {text : List CodeUnit} {offset length : Int}
    {e : ErrorKind} (h : decodeCore cfg src text offset length = .error e) :
    decodeReply cfg src text offset length = .ok (errorResponse e) := by
  simp [decodeReply, h, Except.map, reply_error]

theorem decodeReply_ok {cfg : Cfg} {src : SrcOperand} {text : List CodeUnit} {offset length : Int}
    {out : List Byte} (h : decodeCore cfg src text offset length = .ok out) (hl : out.length ≤ maxLen) :
    decodeReply cfg src text offset length = .ok (okBytes out) := by
  rw [decodeReply, h, ← okResponse_bytes]
  exact reply_ok (out := .bytes out) hl

/-- Everything the decoder unit can answer. -/
theorem decodeReply_ok_iff {cfg : Cfg} {src : SrcOperand} {text : List CodeUnit} {offset length : Int}
    {r : Response} :
    decodeReply cfg src text offset length = .ok r ↔
      (∃ e, decodeCore cfg src text offset length = .error e ∧ r = errorResponse e) ∨
      (∃ out, decodeCore cfg src text offset length = .ok out ∧ out.length ≤ maxLen ∧ r = okBytes out) := by
  cases h : decodeCore cfg src text offset length with
  | error e => simp [decodeReply, h, Except.map, reply_ok_iff]
  | ok out => simp [decodeReply, h, Except.map, reply_ok_iff, okResponse_bytes, Output.length]

/-- The decoder's output is never longer than its window (60_exceptions.md R154). -/
theorem length_decodeCore {cfg : Cfg} {n : Nat} {text : List CodeUnit} {offset length : Int} {out : List Byte}
    (ht : text.length = n) (h : decodeCore cfg (.present n) text offset length = .ok out) : out.length ≤ n := by
  subst ht
  cases hv : argsValid (.present text.length) offset length with
  | false => rw [decodeCore_invalid hv] at h; cases h
  | true =>
    obtain ⟨h1, h2, h3⟩ := argsValid_present.1 hv
    by_cases h4 : length % 4 = 0
    · by_cases h0 : length = 0
      · subst h0; rw [decodeCore_empty hv] at h; cases h; simp
      · rw [decodeCore_window hv h4 h0] at h
        obtain ⟨-, -, rfl⟩ := decodeWindow_eq_ok.1 h
        obtain ⟨off, rfl⟩ := Int.eq_ofNat_of_zero_le h1
        obtain ⟨len, rfl⟩ := Int.eq_ofNat_of_zero_le h2
        have hd := (isDecoding_decodeQuartets (cfg := cfg) (text := text) (offset := off) (length := len)
          (by omega) (by omega) (by omega)).1
        rw [hd]; omega
    · rw [decodeCore_not_multiple hv h4] at h; cases h

/-! ### The decoder undoes the encoder -/

theorem trailingPads_cons {c : CodeUnit} {w : List CodeUnit} (h : 2 ≤ w.length) :
    trailingPads (c :: w) = trailingPads w := by
  have e1 : (c :: w).length - 1 = (w.length - 1) + 1 := by simp only [List.length_cons]; omega
  have e2 : (c :: w).length - 2 = (w.length - 2) + 1 := by simp only [List.length_cons]; omega
  simp only [trailingPads, e1, e2, List.getElem?_cons_succ]

theorem digitPart_cons {c : CodeUnit} {w : List CodeUnit} (h : 2 ≤ w.length) :
    digitPart (c :: w) = c :: digitPart w := by
  have := trailingPads_le w
  have e : (c :: w).length - trailingPads w = (w.length - trailingPads w) + 1 := by
    simp only [List.length_cons]; omega
  rw [digitPart, trailingPads_cons h, e, List.take_succ_cons]
  rfl

/-- The quartets in front of a longer body change neither its pads nor its digits' place. -/
theorem trailingPads_quartet {c0 c1 c2 c3 : CodeUnit} {w : List CodeUnit} (h : 2 ≤ w.length) :
    trailingPads (c0 :: c1 :: c2 :: c3 :: w) = trailingPads w := by
  rw [trailingPads_cons (by simp only [List.length_cons]; omega),
    trailingPads_cons (by simp only [List.length_cons]; omega),
    trailingPads_cons (by simp only [List.length_cons]; omega), trailingPads_cons h]

theorem digitPart_quartet {c0 c1 c2 c3 : CodeUnit} {w : List CodeUnit} (h : 2 ≤ w.length) :
    digitPart (c0 :: c1 :: c2 :: c3 :: w) = c0 :: c1 :: c2 :: c3 :: digitPart w := by
  rw [digitPart_cons (by simp only [List.length_cons]; omega),
    digitPart_cons (by simp only [List.length_cons]; omega),
    digitPart_cons (by simp only [List.length_cons]; omega), digitPart_cons h]

theorem two_le_length_encodeBody {cfg : Cfg} {w : List Byte} (h : w ≠ []) : 2 ≤ (encodeBody cfg w).length := by
  have : 0 < w.length := List.length_pos_iff.2 h
  rw [length_encodeBody]; omega

/-- The pads of a body: `3G - LENGTH` of them, and every other element an alphabet character (40_encode.md R98). -/
theorem pads_encodeBody {cfg : Cfg} (h : cfg.SymbolsLegal) {w : List Byte} (hw : w ≠ []) :
    trailingPads (encodeBody cfg w) = (3 - w.length % 3) % 3 ∧
    ∀ c ∈ digitPart (encodeBody cfg w), ∃ i, c = encRom cfg i := by
  induction w using encodeBody.induct with
  | case1 => exact absurd rfl hw
  | case2 b0 =>
    have hp : trailingPads (encodeBody cfg [b0]) = 2 := by simp [encodeBody, trailingPads]
    refine ⟨by rw [hp]; rfl, ?_⟩
    rw [digitPart, hp]
    simp only [encodeBody, List.length_cons, List.length_nil, Nat.reduceAdd, Nat.reduceSub, List.take_succ_cons,
      List.take_zero, List.mem_cons, List.not_mem_nil, or_false]
    rintro c (rfl | rfl) <;> exact ⟨_, rfl⟩
  | case3 b0 b1 =>
    have hp : trailingPads (encodeBody cfg [b0, b1]) = 1 := by
      simp [encodeBody, trailingPads, encRom_ne_pad h]
    refine ⟨by rw [hp]; rfl, ?_⟩
    rw [digitPart, hp]
    simp only [encodeBody, List.length_cons, List.length_nil, Nat.reduceAdd, Nat.reduceSub, List.take_succ_cons,
      List.take_zero, List.mem_cons, List.not_mem_nil, or_false]
    rintro c (rfl | rfl | rfl) <;> exact ⟨_, rfl⟩
  | case4 b0 b1 b2 rest ih =>
    have hm : (b0 :: b1 :: b2 :: rest).length % 3 = rest.length % 3 := by simp only [List.length_cons]; omega
    rw [hm, encodeBody]
    by_cases hr : rest = []
    · subst hr
      have hp : trailingPads [encRom cfg (field0 b0), encRom cfg (field1 b0 b1), encRom cfg (field2 b1 b2),
          encRom cfg (field3 b2)] = 0 := by simp [trailingPads, encRom_ne_pad h]
      refine ⟨by rw [encodeBody, hp]; rfl, ?_⟩
      rw [encodeBody, digitPart, hp]
      simp only [List.length_cons, List.length_nil, Nat.reduceAdd, Nat.sub_zero, List.take_succ_cons, List.take_zero,
        List.mem_cons, List.not_mem_nil, or_false]
      rintro c (rfl | rfl | rfl | rfl) <;> exact ⟨_, rfl⟩
    · have h2 := two_le_length_encodeBody (cfg := cfg) hr
      obtain ⟨ih1, ih2⟩ := ih hr
      refine ⟨by rw [trailingPads_quartet h2, ih1], ?_⟩
      rw [digitPart_quartet h2]
      simp only [List.mem_cons]
      rintro c (rfl | rfl | rfl | rfl | hc)
      · exact ⟨_, rfl⟩
      · exact ⟨_, rfl⟩
      · exact ⟨_, rfl⟩
      · exact ⟨_, rfl⟩
      · exact ih2 c hc

/-- Unpacking a body gives its bytes back, whatever value the pads are read as. -/
theorem decodeQuartets_encodeBody {cfg : Cfg} (h : cfg.SymbolsLegal) {w : List Byte} (hw : w ≠ []) :
    decodeQuartets cfg ((3 - w.length % 3) % 3) (encodeBody cfg w) = w := by
  induction w using encodeBody.induct with
  | case1 => exact absurd rfl hw
  | case2 b0 =>
    simp [encodeBody, decodeQuartets, quartetBytes, decVal_encRom h, byte0_fields]
  | case3 b0 b1 =>
    simp [encodeBody, decodeQuartets, quartetBytes, decVal_encRom h, byte0_fields, byte1_fields]
  | case4 b0 b1 b2 rest ih =>
    have hm : (b0 :: b1 :: b2 :: rest).length % 3 = rest.length % 3 := by simp only [List.length_cons]; omega
    have hq : quartetBytes cfg (encRom cfg (field0 b0)) (encRom cfg (field1 b0 b1)) (encRom cfg (field2 b1 b2))
        (encRom cfg (field3 b2)) = [b0, b1, b2] := by
      simp [quartetBytes, decVal_encRom h, byte0_fields, byte1_fields, byte2_fields]
    rw [hm, encodeBody]
    by_cases hr : rest = []
    · subst hr
      simp [encodeBody, decodeQuartets, hq]
    · have h2 := two_le_length_encodeBody (cfg := cfg) hr
      rw [decodeQuartets_cons (by intro h0; rw [h0] at h2; simp at h2), hq, ih hr]
      rfl

/-- `DecodeCore` on a whole body gives the bytes back, under either policy (41_decode.md R129). -/
theorem decodeWindow_encodeBody {cfg : Cfg} (h : cfg.SymbolsLegal) {w : List Byte} (hw : w ≠ []) :
    decodeWindow cfg (encodeBody cfg w) = .ok w := by
  obtain ⟨hp, hd⟩ := pads_encodeBody h hw
  refine decodeWindow_eq_ok.2 ⟨fun hm => ?_, ?_, ?_⟩
  · obtain ⟨i, hi⟩ := hd _ hm
    exact encRom_ne_pad h i hi.symm
  · rintro ⟨-, ha⟩
    obtain ⟨c, hc, hn⟩ := List.any_eq_true.1 ha
    obtain ⟨i, rfl⟩ := hd c hc
    simp [isDigit_encRom h] at hn
  · rw [hp, decodeQuartets_encodeBody h hw]

end Sys2Proof.Machine
end

