-- ==== Sys2Proof/Laws/Encoding.lean ====
section
/-! SUPPORT. What the decoder's and the encoder's small functions answer. -/

namespace Sys2Proof

theorem bits_lt {n : Nat} (v : BitVec n) (hi lo : Nat) : bits v hi lo < 2 ^ (hi - lo + 1) :=
  Nat.mod_lt _ (by positivity)

theorem bits_ofNat {n hi lo : Nat} (h : n < 2 ^ 32) :
    bits (BitVec.ofNat 32 n) hi lo = n / 2 ^ lo % 2 ^ (hi - lo + 1) := by
  simp only [bits, BitVec.toNat_ofNat, Nat.mod_eq_of_lt h]

/-- An operand in range survives its descriptor word. -/
theorem toInt_ofInt_of_intOk {x : Int} (h : intOk x = true) : (BitVec.ofInt 32 x).toInt = x := by
  simp only [intOk, Bool.and_eq_true, decide_eq_true_eq] at h
  rw [BitVec.toInt_ofInt]
  apply Int.bmod_eq_of_le <;> omega

/-- A descriptor word read as an operand is in range. -/
theorem intOk_toInt (w : Word) : intOk w.toInt = true := by
  have h1 := BitVec.toInt_lt (x := w)
  have h2 := BitVec.le_toInt (x := w)
  simp only [intOk, Bool.and_eq_true, decide_eq_true_eq]
  norm_num at h1 h2
  omega

theorem SrcOperand.wf_present {n : Nat} : (SrcOperand.present n).wf = true ↔ n ≤ maxLen := decide_eq_true_iff

theorem Instr.cmd_lt (i : Instr) : i.cmd < 16 := by
  cases i with
  | enc _ => simp [Instr.cmd]
  | encL _ m => cases m <;> simp [Instr.cmd, LineBreakMode.bit]
  | encWL _ _ _ m => cases m <;> simp [Instr.cmd, LineBreakMode.bit]
  | dec _ => simp [Instr.cmd]
  | decW _ _ _ => simp [Instr.cmd]

theorem withoutMode_ok {d : Descriptor} {r : Except Reserved Instr} {i : Instr} (h : withoutMode d r = .ok i) :
    bits d.w0 0 0 = 0 ∧ r = .ok i := by
  unfold withoutMode at h
  split at h
  · exact ⟨‹_›, h⟩
  · cases h

theorem shortFormat_ok {d : Descriptor} {i j : Instr} (h : shortFormat d i = .ok j) : d.w1 = 0 ∧ d.w2 = 0 ∧ i = j := by
  unfold shortFormat at h
  split at h
  · rename_i hw
    exact ⟨hw.1, hw.2, Except.ok.inj h⟩
  · cases h

/-- What a defined descriptor has passed before its form is looked at. -/
theorem decode_ok_parts {d : Descriptor} {i : Instr} (h : decode d = .ok i) :
    bits d.w0 7 4 = 0 ∧ bits d.w0 31 9 = 0 ∧ bits d.w3 31 31 = 0 ∧ (bits d.w0 8 8 = 0 → d.w3 = 0) ∧
      decodeForm d = .ok i := by
  unfold decode at h
  split at h; cases h
  split at h; cases h
  split at h; cases h
  split at h; cases h
  rename_i h1 h2 h3 h4
  exact ⟨by omega, by omega, by omega, by tauto, h⟩

end Sys2Proof
end

