-- ==== Sys2Proof/Laws/Exec.lean ====
section
/-! SUPPORT. Every command is one transaction, and what a step can do. -/

namespace Sys2Proof.Machine

/-- What each command answers, given the configuration and its source sequence. -/
def answerOf : Instr → Cfg → Source → Except Refusal Response
  | .enc src, cfg, source => withBytes src source fun bytes =>
      match src with
      | .absent => raise .invalidArgument
      | .present n => encodeReply cfg src bytes 0 n .none
  | .encL src mode, cfg, source => withBytes src source fun bytes =>
      match src with
      | .absent => raise .invalidArgument
      | .present n => encodeReply cfg src bytes 0 n mode
  | .encWL src offset length mode, cfg, source => withBytes src source fun bytes =>
      encodeReply cfg src bytes offset length mode
  | .dec src, cfg, source => withText src source fun text =>
      match src with
      | .absent => raise .invalidArgument
      | .present n => decodeReply cfg src text 0 n
  | .decW src offset length, cfg, source => withText src source fun text =>
      decodeReply cfg src text offset length

/-- Every command is one transaction. -/
theorem exec_eq_transact (i : Instr) (s : State) : exec i s = transact (answerOf i) s := by
  cases i <;> rfl

/-- LENGTH of a short form: SRC_LEN (30_encoding.md R77); unused when the source is absent. -/
def shortLength : SrcOperand → Int
  | .absent => 0
  | .present n => n

/-- An encode command with a declared source answers what the encoder unit answers to its operands. -/
theorem answerOf_enc {src : SrcOperand} {cfg : Cfg} {source : Source} (h : bytesDeclared src source) :
    answerOf (.enc src) cfg source =
      encodeReply cfg src source.bytesOf 0 (shortLength src) .none := by
  simp only [answerOf, withBytes_declared h]
  cases src <;> rfl

theorem answerOf_encL {src : SrcOperand} {mode : LineBreakMode} {cfg : Cfg} {source : Source}
    (h : bytesDeclared src source) :
    answerOf (.encL src mode) cfg source =
      encodeReply cfg src source.bytesOf 0 (shortLength src) mode := by
  simp only [answerOf, withBytes_declared h]
  cases src <;> rfl

theorem answerOf_encWL {src : SrcOperand} {offset length : Int} {mode : LineBreakMode} {cfg : Cfg}
    {source : Source} (h : bytesDeclared src source) :
    answerOf (.encWL src offset length mode) cfg source =
      encodeReply cfg src source.bytesOf offset length mode := by
  simp only [answerOf, withBytes_declared h]

/-- A decode command with a declared source answers what the decoder unit answers to its operands. -/
theorem answerOf_dec {src : SrcOperand} {cfg : Cfg} {source : Source} (h : textDeclared src source) :
    answerOf (.dec src) cfg source =
      decodeReply cfg src source.textOf 0 (shortLength src) := by
  simp only [answerOf, withText_declared h]
  cases src <;> rfl

theorem answerOf_decW {src : SrcOperand} {offset length : Int} {cfg : Cfg} {source : Source}
    (h : textDeclared src source) :
    answerOf (.decW src offset length) cfg source = decodeReply cfg src source.textOf offset length := by
  simp only [answerOf, withText_declared h]

/-- A command whose source is not the declared one is refused by name. -/
theorem answerOf_mismatch {i : Instr} {cfg : Cfg} {source : Source} (h : ¬ sourceDeclared i source) :
    answerOf i cfg source = .error .sourceMismatch := by
  cases i <;> simp only [sourceDeclared] at h <;> simp only [answerOf] <;>
    first
      | exact withBytes_mismatch h
      | exact withText_mismatch h

/-- Everything a step can do when it answers a next state. -/
theorem step_next_iff {s t : State} :
    step s = .next t ↔
      (s.inputs = [] ∧ t = s) ∨ (∃ rest, s.inputs = .reset :: rest ∧ t = s.absorbReset rest) ∨
      (∃ c rest i r, s.inputs = .command c :: rest ∧ decode c.words = .ok i ∧
        answerOf i s.cfg c.source = .ok r ∧ t = s.complete c rest r) := by
  simp only [step, takeInput]
  split
  · rename_i h
    simp only [h, Host.Outcome.next.injEq, true_and, reduceCtorEq, false_and, exists_false, or_false]
    exact eq_comm
  · rename_i rest h
    simp only [h, Host.Outcome.next.injEq, reduceCtorEq, false_and, exists_false, or_false, false_or,
      List.cons.injEq, true_and, exists_eq_left']
    exact eq_comm
  · rename_i c rest h
    simp only [h]
    cases hd : decode c.words with
    | error e => simp [hd]
    | ok i =>
      simp only [exec_eq_transact, transact_next_iff, h]
      constructor
      · rintro ⟨c', rest', r, heq, hr, rfl⟩
        obtain ⟨h1, rfl⟩ := List.cons.inj heq
        obtain rfl := Input.command.inj h1
        exact .inr (.inr ⟨c, rest, i, r, rfl, hd, hr, rfl⟩)
      · rintro (⟨h1, -⟩ | ⟨rest', h1, -⟩ | ⟨c', rest', i', r, heq, hd', hr, rfl⟩)
        · cases h1
        · cases h1
        · obtain ⟨h1, rfl⟩ := List.cons.inj heq
          obtain rfl := Input.command.inj h1
          rw [hd] at hd'
          obtain rfl := Except.ok.inj hd'
          exact ⟨c, rest, r, rfl, hr, rfl⟩

/-- A step on a defined command runs it. -/
theorem step_command {s : State} {c : Command} {rest : List Input} {i : Instr}
    (hin : s.inputs = .command c :: rest) (hd : decode c.words = .ok i) : step s = exec i s := by
  simp only [step, takeInput, hin, hd]

/-- `Step(Cfg, cmd)` is what the command of the descriptor answers. -/
theorem respond_eq_some {cfg : Cfg} {c : Command} {r : Response} :
    respond cfg c = some r ↔ ∃ i, decode c.words = .ok i ∧ answerOf i cfg c.source = .ok r := by
  unfold respond
  constructor
  · intro h
    split at h
    · rename_i t ht
      obtain (⟨h1, -⟩ | ⟨_, h1, -⟩ | ⟨c', rest, i, r', hin, hd, hr, rfl⟩) := step_next_iff.1 ht
      · cases h1
      · cases h1
      · obtain ⟨h1, rfl⟩ := List.cons.inj hin
        obtain rfl := Input.command.inj h1
        simp only [State.complete_completed, List.nil_append, List.head?_cons, Option.map_some,
          Option.some.injEq] at h
        subst h
        exact ⟨i, hd, hr⟩
    · cases h
    · cases h
  · rintro ⟨i, hd, hr⟩
    have hs : step { cfg := cfg, inputs := [.command c], completed := [] } =
        .next (State.complete { cfg := cfg, inputs := [.command c], completed := [] } c [] r) :=
      step_next_iff.2 (.inr (.inr ⟨c, [], i, r, rfl, hd, hr, rfl⟩))
    simp [hs]

end Sys2Proof.Machine
end

