-- ==== Sys2Proof/Laws/PerInstr.lean ====
section
/-! SUPPORT. Statements about every command as syntax, one lemma per constructor. -/

namespace Sys2Proof.Laws.OpcodeRow

/-- The `CMD` a command assembles to belongs to the row of the opcode table that bears its mnemonic, and to no other
(spec/30_encoding.md R79, R83, R86). -/
def Statement (i : Instr) : Prop :=
  opcodeTable.filter (fun row => row.matches (BitVec.ofNat 8 i.cmd)) =
    opcodeTable.filter (fun row => row.mnemonic == i.mnemonic)

theorem enc (src : SrcOperand) : Statement (.enc src) := by
  simp only [Statement, Instr.cmd, Instr.mnemonic]
  decide

theorem encL (src : SrcOperand) (mode : LineBreakMode) : Statement (.encL src mode) := by
  cases mode <;> simp only [Statement, Instr.cmd, Instr.mnemonic, LineBreakMode.bit] <;> decide

theorem encWL (src : SrcOperand) (offset length : Int) (mode : LineBreakMode) :
    Statement (.encWL src offset length mode) := by
  cases mode <;> simp only [Statement, Instr.cmd, Instr.mnemonic, LineBreakMode.bit] <;> decide

theorem dec (src : SrcOperand) : Statement (.dec src) := by
  simp only [Statement, Instr.cmd, Instr.mnemonic]
  decide

theorem decW (src : SrcOperand) (offset length : Int) : Statement (.decW src offset length) := by
  simp only [Statement, Instr.cmd, Instr.mnemonic]
  decide

end Sys2Proof.Laws.OpcodeRow
end

