-- ==== Sys2Proof/Tests/Slice0.lean ====
section
/-! SUPPORT. Small tests. Every expected value is taken from spec/95_test_vectors.md (its row or program is named) or is
written out from the encoding of spec/30_encoding.md. The `witness_` theorems show, for each statement with
hypotheses, states and operands that meet them. -/

namespace Sys2Proof.Tests

open Sys2Proof Sys2Proof.Machine

/-- A state in which the host has handed over one command. -/
def ready (cfg : Cfg) (words : Descriptor) (source : Source) : State :=
  { cfg := cfg, inputs := [.command ⟨words, source⟩], completed := [] }

/-- The bytes of "foobar" (S1). -/
def foobar : List Byte := [0x66, 0x6F, 0x6F, 0x62, 0x61, 0x72]

/-- The source sequence of 95_test_vectors.md section 2.3. -/
def padded : List Byte := [0x00, 0x66, 0x6F, 0x6F, 0x62, 0x61, 0x72, 0xFF]

/-- `z(n)`: `n` bytes 0x00 (95_test_vectors.md section 2.4). -/
def zeros (n : Nat) : List Byte := List.replicate n 0

/-- `A^k`: `k` times `A` (95_test_vectors.md section 2.4). -/
def lettersA (k : Nat) : List CodeUnit := List.replicate k 0x41

/-- `"xxZm9vYmFyZg==yy"`, the source text of 95_test_vectors.md section 2.6. -/
def windowed : List CodeUnit :=
  [0x78, 0x78, 0x5A, 0x6D, 0x39, 0x76, 0x59, 0x6D, 0x46, 0x79, 0x5A, 0x67, 0x3D, 0x3D, 0x79, 0x79]

/-- The default parameters with UNKNOWN_POLICY = REJECT (41_decode.md R118). -/
def rejecting : Cfg := { defaultCfg with unknownPolicy := .reject }

/-- The name a step is refused under. -/
def refusal (o : Host.Outcome State Fault Refusal) : Option Refusal :=
  match o with
  | .next _ => none
  | .fault _ => none
  | .refused why => some why

/-! ### Well-formedness (00_scope.md R11, R12) -/

theorem test_wf_source_length :
    (Instr.enc (.present 2147483647)).wf = true ∧ (Instr.enc (.present 2147483648)).wf = false ∧
    (Instr.encL (.present 2147483648) .none).wf = false ∧ (Instr.encWL (.present 2147483648) 0 0 .none).wf = false ∧
    (Instr.dec (.present 2147483648)).wf = false ∧ (Instr.decW (.present 2147483648) 0 0).wf = false := by decide

theorem test_wf_offset :
    (Instr.encWL .absent 2147483647 0 .none).wf = true ∧ (Instr.encWL .absent 2147483648 0 .none).wf = false ∧
    (Instr.encWL .absent (-2147483648) 0 .none).wf = true ∧ (Instr.encWL .absent (-2147483649) 0 .none).wf = false ∧
    (Instr.decW .absent 2147483648 0).wf = false ∧ (Instr.decW .absent (-2147483649) 0).wf = false := by decide

theorem test_wf_length :
    (Instr.encWL .absent 0 2147483647 .none).wf = true ∧ (Instr.encWL .absent 0 2147483648 .none).wf = false ∧
    (Instr.encWL .absent 0 (-2147483649) .none).wf = false ∧ (Instr.decW .absent 0 2147483648).wf = false ∧
    (Instr.decW .absent 0 (-2147483649)).wf = false := by decide

/-! ### Decoding: `W0` written out as `W0[31:9] ++ P ++ CMD[7:4] ++ F ++ L` (30_encoding.md R71, R74, R79) -/

theorem test_decode_enc : decode ⟨0#23 ++ 1#1 ++ 0#4 ++ 0#3 ++ 0#1, 0, 0, 0#1 ++ 6#31⟩ = .ok (.enc (.present 6)) := by
  decide

theorem test_decode_encL :
    decode ⟨0#23 ++ 1#1 ++ 0#4 ++ 1#3 ++ 1#1, 0, 0, 0#1 ++ 58#31⟩ = .ok (.encL (.present 58) .insertEvery76) ∧
    decode ⟨0#23 ++ 0#1 ++ 0#4 ++ 1#3 ++ 0#1, 0, 0, 0⟩ = .ok (.encL .absent .none) := by decide

theorem test_decode_encWL :
    decode ⟨0#23 ++ 1#1 ++ 0#4 ++ 2#3 ++ 1#1, 1#1 ++ 0#31, 0x7FFFFFFF, 0#1 ++ 0x7FFFFFFF#31⟩ =
      .ok (.encWL (.present 2147483647) (-2147483648) 2147483647 .insertEvery76) ∧
    decode ⟨0#23 ++ 1#1 ++ 0#4 ++ 2#3 ++ 0#1, 1, 4, 8⟩ = .ok (.encWL (.present 8) 1 4 .none) := by decide

theorem test_decode_dec : decode ⟨0#23 ++ 1#1 ++ 0#4 ++ 3#3 ++ 0#1, 0, 0, 0#1 ++ 4#31⟩ = .ok (.dec (.present 4)) := by
  decide

theorem test_decode_decW :
    decode ⟨0#23 ++ 1#1 ++ 0#4 ++ 4#3 ++ 0#1, 0xFFFFFFFC, 4, 0#1 ++ 16#31⟩ = .ok (.decW (.present 16) (-4) 4) := by
  decide

/-- TC9 to TC17, and `F` = 6 and 7. -/
theorem test_decode_reserved :
    decode ⟨0x101, 0, 0, 6⟩ = .error .modeBit ∧ decode ⟨0x107, 0, 0, 4⟩ = .error .modeBit ∧
    decode ⟨0x109, 0, 4, 4⟩ = .error .modeBit ∧ decode ⟨0x10A, 0, 0, 0⟩ = .error .form ∧
    decode ⟨0x10C, 0, 0, 0⟩ = .error .form ∧ decode ⟨0x10E, 0, 0, 0⟩ = .error .form ∧
    decode ⟨0x110, 0, 0, 0⟩ = .error .cmdHigh ∧ decode ⟨0x300, 0, 0, 0⟩ = .error .w0High ∧
    decode ⟨0x100, 1, 0, 6⟩ = .error .windowWords ∧ decode ⟨0x006, 0, 0, 4⟩ = .error .absentWithLength ∧
    decode ⟨0x106, 0, 0, 0x80000000⟩ = .error .w3High := by decide

/-- The 8-bit table words of the five rows, as spec/opcode_table.json has them; `L` is bit 0. -/
theorem test_decodeTableWord :
    decodeTableWord 8 0x00 = some (.enc .absent) ∧ decodeTableWord 8 0x03 = some (.encL .absent .insertEvery76) ∧
    decodeTableWord 8 0x04 = some (.encWL .absent 0 0 .none) ∧ decodeTableWord 8 0x06 = some (.dec .absent) ∧
    decodeTableWord 8 0x08 = some (.decW .absent 0 0) ∧ decodeTableWord 8 0x0A = none ∧
    decodeTableWord 128 (0x100 + 6 * 2 ^ 96) = some (.enc (.present 6)) := by decide

/-! ### One command each, through `step` -/

/-- P1 step 1, S1. -/
theorem test_enc_foobar :
    respond defaultCfg ⟨⟨0x100, 0, 0, 6⟩, .bytes foobar⟩ =
      some ⟨0, 8, .text [0x5A, 0x6D, 0x39, 0x76, 0x59, 0x6D, 0x46, 0x79]⟩ := by decide

/-- P5 step 3. -/
theorem test_enc_symbols_and_pad :
    respond defaultCfg ⟨⟨0x100, 0, 0, 2⟩, .bytes [0xFB, 0xFF]⟩ =
      some ⟨0, 4, .text [0x2B, 0x2F, 0x38, 0x3D]⟩ := by decide

/-- TL4: breaks at 76, 77 and 154, 155. -/
theorem test_encL_two_breaks :
    respond defaultCfg ⟨⟨0x103, 0, 0, 115⟩, .bytes (zeros 115)⟩ =
      some ⟨0, 160, .text (lettersA 76 ++ [0x0D, 0x0A] ++ lettersA 76 ++ [0x0D, 0x0A] ++ [0x41, 0x41, 0x3D, 0x3D])⟩ := by decide +kernel

/-- 95_test_vectors.md section 2.4, LB_AT_END = true: TL6 gives DST_LEN 6. -/
theorem test_encL_break_at_end :
    respond { defaultCfg with lbAtEnd := true } ⟨⟨0x103, 0, 0, 1⟩, .bytes (zeros 1)⟩ =
      some ⟨0, 6, .text [0x41, 0x41, 0x3D, 0x3D, 0x0D, 0x0A]⟩ := by decide

/-- TW2. -/
theorem test_encWL_missing_bytes_are_zero :
    respond defaultCfg ⟨⟨0x104, 1, 1, 8⟩, .bytes padded⟩ =
      some ⟨0, 4, .text [0x5A, 0x67, 0x3D, 0x3D]⟩ := by decide

/-- TW14. -/
theorem test_encWL_sum_does_not_wrap :
    respond defaultCfg ⟨⟨0x104, 2147483647, 1, 8⟩, .bytes padded⟩ =
      some ⟨1, 0, .none⟩ := by decide

/-- TD19. -/
theorem test_dec_crlf_and_pads :
    respond defaultCfg ⟨⟨0x106, 0, 0, 8⟩, .text [0x5A, 0x6D, 0x39, 0x76, 0x0D, 0x0A, 0x3D, 0x3D]⟩ =
      some ⟨0, 4, .bytes [0x66, 0x6F, 0x6F, 0x00]⟩ := by decide

/-- TD10, `"!/8="`. -/
theorem test_dec_mixed_pair_members :
    respond defaultCfg ⟨⟨0x106, 0, 0, 4⟩, .text [0x21, 0x2F, 0x38, 0x3D]⟩ =
      some ⟨0, 2, .bytes [0xFB, 0xFF]⟩ := by decide

/-- TV5. -/
theorem test_decW_shifted_window :
    respond defaultCfg ⟨⟨0x108, 3, 4, 16⟩, .text windowed⟩ =
      some ⟨0, 3, .bytes [0x9B, 0xDB, 0xD8]⟩ := by decide

/-- TV12. -/
theorem test_decW_both_causes :
    respond defaultCfg ⟨⟨0x108, 14, 3, 16⟩, .text windowed⟩ =
      some ⟨1, 0, .none⟩ := by decide

/-- The table word `CMD` = 0x03 runs as the first command after reset: an absent sequence is InvalidArgument (R105). -/
theorem test_fetch_word_runs :
    step (State.reset.withFetchWord 8 0x03) = .next (afterResponse (State.reset.withFetchWord 8 0x03)
      (tableCommand 8 0x03) [] ⟨1, 0, .none⟩) := rfl

/-- TC13: a reserved descriptor is refused (R80), and so is a source the descriptor does not declare (R164). -/
theorem test_refusals :
    refusal (step (ready defaultCfg ⟨0x110, 0, 0, 0⟩ .absent)) = some (.reserved .cmdHigh) ∧
    refusal (step (ready defaultCfg ⟨0x100, 0, 0, 5⟩ (.bytes foobar))) = some .sourceMismatch ∧
    refusal (step State.reset) = none := by decide

/-! ### Witnesses: the hypotheses of each statement are met -/

/-- `"Zm9vYmFy"` (P1). -/
def zm9vYmFy : List CodeUnit := [0x5A, 0x6D, 0x39, 0x76, 0x59, 0x6D, 0x46, 0x79]

/-- `"Zg=="` (S4). -/
def zgPadPad : List CodeUnit := [0x5A, 0x67, 0x3D, 0x3D]

/-- `"Z=g="` (S6). -/
def zPadInside : List CodeUnit := [0x5A, 0x3D, 0x67, 0x3D]

/-- `"Z$=="` (TD14). -/
def zDollar : List CodeUnit := [0x5A, 0x24, 0x3D, 0x3D]

/-- `ENC` of "foobar" (P1). -/
def encFoobar : Command := ⟨⟨0x100, 0, 0, 6⟩, .bytes foobar⟩

/-- `DEC` of `"Zg=="` (P3 step 1). -/
def decZg : Command := ⟨⟨0x106, 0, 0, 4⟩, .text zgPadPad⟩

/-- What `ENC` answers for "foobar" (P1). -/
def encFoobarResponse : Response := ⟨0, 8, .text zm9vYmFy⟩

/-- What `DEC` answers for `"Zg=="` (P3). -/
def decZgResponse : Response := ⟨0, 1, .bytes [0x66]⟩

/-- The state in which the host has handed over `c` and nothing else. -/
def only (c : Command) : State := { cfg := defaultCfg, inputs := [.command c], completed := [] }

/-- A state with a source of bytes, for the statements that name the command apart. -/
def withSource (source : Source) : State := only ⟨⟨0, 0, 0, 0⟩, source⟩

/-- The first hypothesis of the statements over a command. -/
theorem only_inputs (c : Command) : (only c).inputs = .command c :: [] := rfl

/-- The same, for the statements that name the source apart. -/
theorem withSource_inputs (source : Source) :
    (withSource source).inputs = .command ⟨⟨0, 0, 0, 0⟩, source⟩ :: [] := rfl

theorem witness_DecodeOfEncode :
    (Instr.encWL (.present 2147483647) (-2147483648) 2147483647 .insertEvery76).wf = true ∧
    (Instr.enc .absent).wf = true := by decide

/-- Also for DecodedCommandIsItsRow. -/
theorem witness_EncodeOfDecode :
    decode ⟨0x108, 0x80000000, 0x7FFFFFFF, 0x7FFFFFFF⟩ = .ok (.decW (.present 2147483647) (-2147483648) 2147483647) ∧
    (⟨"DEC.W", 0x08, 0xFF⟩ : OpcodeRow) ∈ opcodeTable ∧ (⟨"ENC", 0x00, 0xFF⟩ : OpcodeRow) ∈ opcodeTable := by decide

theorem witness_ReservedExactlyAsListed :
    (only ⟨⟨0x110, 0, 0, 0⟩, .absent⟩).inputs = .command ⟨⟨0x110, 0, 0, 0⟩, .absent⟩ :: [] ∧
    ReservedDescriptor ⟨0x110, 0, 0, 0⟩ ∧ ¬ ReservedDescriptor ⟨0x108, 0xFFFFFFFC, 4, 16⟩ := by decide

theorem witness_StepRunsTheDecodedCommand :
    (only encFoobar).inputs = .command encFoobar :: [] ∧ decode encFoobar.words = .ok (.enc (.present 6)) := by decide

theorem witness_ResetInputHasNoEffect :
    ({ cfg := defaultCfg, inputs := [.reset, .command decZg], completed := [⟨encFoobar, encFoobarResponse⟩] } : State).inputs =
      .reset :: [.command decZg] := rfl

theorem witness_ExecFrame :
    exec (.enc (.present 6)) (only encFoobar) = .next (afterResponse (only encFoobar) encFoobar [] encFoobarResponse) := rfl

/-- No input, a reset, a command. -/
theorem witness_StepFrame :
    step State.reset = .next State.reset ∧
    step { State.reset with inputs := [.reset] } = .next State.reset ∧
    step (only decZg) = .next (afterResponse (only decZg) decZg [] decZgResponse) := ⟨rfl, rfl, rfl⟩

/-- A command that is answered and one that is refused. -/
theorem witness_ResponseDependsOnTheCommandAlone :
    (only decZg).inputs = .command decZg :: [] ∧ respond (only decZg).cfg decZg = some decZgResponse ∧
    respond defaultCfg ⟨⟨0x110, 0, 0, 0⟩, .absent⟩ = none := by decide

/-- A state that meets the invariant with a transaction behind it and a command before it. -/
theorem witness_StepKeepsTheInvariant :
    let s : State := { cfg := defaultCfg, inputs := [.command decZg], completed := [⟨encFoobar, encFoobarResponse⟩] }
    s.Inv ∧ step s = .next (afterResponse s decZg [] decZgResponse) := by
  refine ⟨⟨defaultCfg_legal, ?_, ?_⟩, rfl⟩
  · intro t ht
    obtain rfl := List.mem_singleton.1 ht
    refine ⟨by decide, ?_⟩
    intro out h c hc
    obtain rfl := Output.text.inj h
    have ascii : zm9vYmFy.all (fun u => decide (u.toNat < 128)) = true := by decide
    exact of_decide_eq_true (List.all_eq_true.1 ascii c hc)
  · intro t ht
    obtain rfl := List.mem_singleton.1 ht
    decide

theorem witness_RunAnswersEveryCommand :
    ({ State.reset with inputs := [.command encFoobar, .command decZg] } : State).inputs =
      [encFoobar, decZg].map .command ∧
    List.Forall₂ (fun c r => respond defaultCfg c = some r) [encFoobar, decZg] [encFoobarResponse, decZgResponse] :=
  ⟨rfl, .cons (by decide) (.cons (by decide) .nil)⟩

theorem witness_OrderOfCommandsIsInvisible :
    let s : State := { State.reset with inputs := [.command encFoobar, .command decZg] }
    let s' : State := { State.reset with inputs := [.command decZg, .command encFoobar] }
    s'.cfg = s.cfg ∧ s.completed = [] ∧ s'.completed = [] ∧ s.inputs = [encFoobar, decZg].map .command ∧
    s'.inputs = [decZg, encFoobar].map .command ∧ [encFoobar, decZg].Perm [decZg, encFoobar] ∧
    Sys2Proof.core.run 2 s = .next { cfg := defaultCfg, inputs := [], completed := [⟨encFoobar, encFoobarResponse⟩, ⟨decZg, decZgResponse⟩] } :=
  ⟨rfl, rfl, rfl, rfl, rfl, List.Perm.swap _ _ _, rfl⟩

/-- An answered command, and the shortest `ENC` whose output is too long. -/
theorem witness_DefinedCommandIsAnswered :
    decode encFoobar.words = .ok (.enc (.present 6)) ∧ sourceDeclared (.enc (.present 6)) encFoobar.source ∧
    decode ⟨0x100, 0, 0, 1610612734⟩ = .ok (.enc (.present 1610612734)) ∧
    sourceDeclared (.enc (.present 1610612734)) (.bytes (zeros 1610612734)) ∧
    maxLen < encodedLength defaultCfg .none 1610612734 :=
  ⟨by decide, rfl, by decide, List.length_replicate, by decide⟩

/-- A length, a kind and a presence that are not the declared ones; and no command at the head. -/
theorem witness_UndeclaredSourceIsRefused :
    (withSource (.bytes foobar)).inputs = .command ⟨⟨0, 0, 0, 0⟩, .bytes foobar⟩ :: [] ∧
    ¬ sourceDeclared (.enc (.present 5)) (.bytes foobar) ∧ ¬ sourceDeclared (.dec (.present 6)) (.bytes foobar) ∧
    ¬ sourceDeclared (.decW .absent 0 0) (.text []) ∧
    (∀ c rest, State.reset.inputs ≠ .command c :: rest) := by
  refine ⟨rfl, ?_, id, id, ?_⟩
  · intro h
    exact absurd (show foobar.length = 5 from h) (by decide)
  · intro c rest h
    cases h

theorem witness_FetchWordRunsItsCommand : decodeTableWord 8 0x03 = some (.encL .absent .insertEvery76) := by decide

/-- Both at the longest sequence that may be encoded and at a short one. -/
theorem witness_EncAndEncLAnswerTheText :
    (withSource (.bytes foobar)).inputs = .command ⟨⟨0, 0, 0, 0⟩, .bytes foobar⟩ :: [] ∧
    encodedLength (withSource (.bytes foobar)).cfg .none foobar.length ≤ maxLen ∧
    encodedLength (withSource (.bytes foobar)).cfg .insertEvery76 foobar.length ≤ maxLen ∧
    encodedLength defaultCfg .none (zeros 1610612733).length ≤ maxLen := by
  refine ⟨rfl, by decide, by decide, ?_⟩
  rw [show (zeros 1610612733).length = 1610612733 from List.length_replicate]
  decide

/-- The whole sequence, a window at its end, and the empty window after its last element. -/
theorem witness_EncWLAnswersTheBody :
    0 + 8 ≤ padded.length ∧ 5 + 3 ≤ padded.length ∧ 8 + 0 ≤ padded.length ∧
    4 * ((8 + 2) / 3) ≤ maxLen ∧ 4 * ((3 + 2) / 3) ≤ maxLen ∧ 4 * ((0 + 2) / 3) ≤ maxLen := by decide

/-- 57 bytes (TL1: no break) and 58 bytes (TL2: one break). -/
theorem witness_EncWLAnswersTheWrappedText :
    0 + 57 ≤ (zeros 58).length ∧ 0 + 58 ≤ (zeros 58).length ∧
    encodedLength (withSource (.bytes (zeros 58))).cfg .insertEvery76 57 ≤ maxLen ∧
    encodedLength (withSource (.bytes (zeros 58))).cfg .insertEvery76 58 ≤ maxLen := by decide

theorem witness_ShortFormsAreFullForms :
    (withSource .absent).inputs = .command ⟨⟨0, 0, 0, 0⟩, .absent⟩ :: [] := rfl

/-- 57 and 58 bytes. -/
theorem witness_FirstBreakNeedsFiftyEightBytes :
    (withSource (.bytes (zeros 57))).cfg.lbAtEnd = false ∧ (zeros 57).length ≤ 57 ∧ 58 ≤ (zeros 58).length ∧
    (withSource (.bytes (zeros 58))).cfg.lineBreak ≠ [] ∧
    encodedLength (withSource (.bytes (zeros 58))).cfg .insertEvery76 (zeros 58).length ≤ maxLen := by decide

theorem witness_BoundaryLaw :
    (withSource (.bytes [])).inputs = .command ⟨⟨0, 0, 0, 0⟩, .bytes []⟩ :: [] ∧
    (withSource (.text [])).inputs = .command ⟨⟨0, 0, 0, 0⟩, .text []⟩ :: [] := ⟨rfl, rfl⟩

/-- OFFSET = SRC_LEN (TW9, TV10) and an empty sequence (TL7). -/
theorem witness_EmptyWindowGivesEmptyOutput :
    (withSource (.bytes padded)).inputs = .command ⟨⟨0, 0, 0, 0⟩, .bytes padded⟩ :: [] ∧ 8 ≤ padded.length ∧
    (withSource (.bytes [])).inputs = .command ⟨⟨0, 0, 0, 0⟩, .bytes []⟩ :: [] ∧
    (withSource (.text windowed)).inputs = .command ⟨⟨0, 0, 0, 0⟩, .text windowed⟩ :: [] ∧ 16 ≤ windowed.length := by
  decide

theorem witness_EncodedLengthLaw :
    1 + 6 ≤ padded.length ∧ 4 * ((6 + 2) / 3) ≤ maxLen ∧
    encodedLength (withSource (.bytes padded)).cfg .insertEvery76 6 ≤ maxLen := by decide

/-- LENGTH mod 3 = 0, 1, 2. -/
theorem witness_PaddingLaw :
    (withSource (.bytes padded)).cfg.SymbolsLegal ∧
    (0 + 3 ≤ padded.length ∧ 3 % 3 = 0) ∧ (1 + 1 ≤ padded.length ∧ 1 % 3 = 1) ∧ (6 + 2 ≤ padded.length ∧ 2 % 3 = 2) ∧
    4 * ((3 + 2) / 3) ≤ maxLen := ⟨defaultCfg_symbolsLegal, by decide, by decide, by decide, by decide⟩

theorem witness_RemovingBreaksGivesTheBody :
    0 + 58 ≤ (zeros 58).length ∧ (withSource (.bytes (zeros 58))).cfg.Legal ∧
    encodedLength (withSource (.bytes (zeros 58))).cfg .insertEvery76 58 ≤ maxLen :=
  ⟨by decide, defaultCfg_legal, by decide⟩

theorem witness_OutputAlphabet :
    0 + 58 ≤ (zeros 58).length ∧ (withSource (.bytes (zeros 58))).cfg.Legal ∧
    encodedLength (withSource (.bytes (zeros 58))).cfg .insertEvery76 58 ≤ maxLen ∧
    encodedLength (withSource (.bytes (zeros 58))).cfg .none 58 ≤ maxLen :=
  ⟨by decide, defaultCfg_legal, by decide, by decide⟩

theorem witness_EncoderRaisesOnlyInvalidArgument :
    exec (.enc (.present 6)) (only encFoobar) =
      .next (afterResponse (only encFoobar) encFoobar [] encFoobarResponse) ∧
    exec (.encWL (.present 6) 7 0 .none) (only encFoobar) =
      .next (afterResponse (only encFoobar) encFoobar [] invalidArgumentResponse) := ⟨rfl, rfl⟩

theorem witness_EncodingIsInjective :
    (only encFoobar).cfg.SymbolsLegal ∧ 0 + 3 ≤ foobar.length ∧ 3 + 3 ≤ foobar.length ∧ 4 * ((3 + 2) / 3) ≤ maxLen ∧
    (foobar.drop 0).take 3 ≠ (foobar.drop 3).take 3 :=
  ⟨defaultCfg_symbolsLegal, by decide, by decide, by decide, by decide⟩

/-- The longest window that may be encoded and the next one. -/
theorem witness_TooLongOutputIsRefused :
    0 + 1610612733 ≤ (zeros 1610612734).length ∧ 0 + 1610612734 ≤ (zeros 1610612734).length ∧
    ¬ maxLen < encodedLength defaultCfg .none 1610612733 ∧ maxLen < encodedLength defaultCfg .none 1610612734 ∧
    (SrcOperand.present 2147483647).wf = true := by
  rw [show (zeros 1610612734).length = 1610612734 from List.length_replicate]
  decide

/-- Absent and present sequences, a window that just fits and one that just does not. -/
theorem witness_InvalidArgumentExactly :
    bytesDeclared .absent .absent ∧ textDeclared .absent .absent ∧ bytesDeclared (.present 8) (.bytes padded) ∧
    textDeclared (.present 16) (.text windowed) ∧ WindowInvalid (.present 8) 7 2 ∧ ¬ WindowInvalid (.present 8) 7 1 ∧
    WindowInvalid (.present 16) (-1) 0 ∧ WindowInvalid (.present 16) 0 (-1) ∧ ¬ WindowInvalid (.present 16) 16 0 := by
  simp [bytesDeclared, textDeclared, WindowInvalid, padded, windowed]

/-- TV13 (length), TV6 (a misplaced pad), TV3 (neither). -/
theorem witness_FormatErrorExactly :
    (withSource (.text windowed)).cfg.unknownPolicy = .zero ∧ textDeclared (.present 16) (.text windowed) ∧
    ¬ WindowInvalid (.present 16) 13 3 ∧ (3 : Int) % 4 ≠ 0 ∧ ¬ WindowInvalid (.present 16) 12 4 ∧
    PadMisplaced windowed 12 4 ∧ ¬ WindowInvalid (.present 16) 10 4 ∧ ¬ PadMisplaced windowed 10 4 := by
  simp only [WindowInvalid, PadMisplaced, textDeclared]
  decide

/-- S5, and windows of 3 units that fit and that do not (TV13, TV12). -/
theorem witness_LengthNotMultipleOfFourFails :
    ([0x5A, 0x67, 0x3D] : List CodeUnit).length % 4 ≠ 0 ∧ (3 : Int) % 4 ≠ 0 ∧
    ((0 : Int) ≤ 13 ∧ (0 : Int) ≤ 3 ∧ (13 : Int) + 3 ≤ windowed.length) ∧
    ¬ ((0 : Int) ≤ 14 ∧ (0 : Int) ≤ 3 ∧ (14 : Int) + 3 ≤ windowed.length) := by decide

/-- Each clause in turn: TV12, TV13, TV6, a non-digit under REJECT (TD14), and a success (S4). -/
theorem witness_ErrorPriority :
    textDeclared (.present 16) (.text windowed) ∧ (SrcOperand.present 16).wf = true ∧
    WindowInvalid (.present 16) 14 3 ∧
    (¬ WindowInvalid (.present 16) 13 3 ∧ (3 : Int) % 4 ≠ 0) ∧
    (¬ WindowInvalid (.present 16) 12 4 ∧ (4 : Int) % 4 = 0 ∧ PadMisplaced windowed 12 4) ∧
    (¬ PadMisplaced zDollar 0 4 ∧ rejecting.unknownPolicy = .reject ∧ NonDigitPresent rejecting zDollar 0 4) ∧
    (¬ PadMisplaced zgPadPad 0 4 ∧ ¬ NonDigitPresent rejecting zgPadPad 0 4) := by
  simp only [WindowInvalid, PadMisplaced, NonDigitPresent, textDeclared]
  decide

/-- Also for DecValOfEveryUnit. -/
theorem witness_EncRomEntries : defaultCfg.SymbolsLegal ∧ isDigit defaultCfg 0x24 = false ∧ (128 : Nat) ≤ (0xE9 : CodeUnit).toNat :=
  ⟨defaultCfg_symbolsLegal, by decide, by decide⟩

/-- `/` is alphabet character 63, `!` and `*` are the alternates, `$` is none of them, `A` is the digit of value 0. -/
theorem witness_DecRomEntries :
    defaultCfg.SymbolsLegal ∧ (0x2F : BitVec 7).setWidth 16 = encRom defaultCfg 63 ∧
    (0x21 : BitVec 7).setWidth 16 = defaultCfg.alt62 ∧ (0x2A : BitVec 7).setWidth 16 = defaultCfg.alt63 ∧
    ((∀ v, (0x24 : BitVec 7).setWidth 16 ≠ encRom defaultCfg v) ∧ (0x24 : BitVec 7).setWidth 16 ≠ defaultCfg.alt62 ∧
      (0x24 : BitVec 7).setWidth 16 ≠ defaultCfg.alt63) ∧
    (isDigit defaultCfg 0x41 = true ∧ decVal defaultCfg 0x41 = 0) :=
  ⟨defaultCfg_symbolsLegal, by decide, by decide, by decide,
    ⟨fun v => (alphabetIndex_eq_none.1 (show alphabetIndex defaultCfg 0x24 = none by decide) v).symm, by decide, by decide⟩, by decide⟩

theorem witness_OnlySymbolPairsShareAValue :
    defaultCfg.SymbolsLegal ∧ isDigit defaultCfg 0x2B = true ∧ isDigit defaultCfg 0x21 = true ∧
    decVal defaultCfg 0x2B = decVal defaultCfg 0x21 := ⟨defaultCfg_symbolsLegal, by decide, by decide, by decide⟩

/-- S4 under both policies. -/
theorem witness_DecAnswersTheBytes :
    (zgPadPad : List CodeUnit).length ≤ maxLen ∧ (zgPadPad : List CodeUnit).length % 4 = 0 ∧ 0 < (zgPadPad : List CodeUnit).length ∧
    ¬ PadMisplaced zgPadPad 0 4 ∧ defaultCfg.unknownPolicy = .zero ∧ ¬ NonDigitPresent rejecting zgPadPad 0 4 := by
  simp only [PadMisplaced, NonDigitPresent]
  decide

/-- TV2 and TV3. -/
theorem witness_DecWAnswersTheBytes :
    windowed.length ≤ maxLen ∧ 2 + 12 ≤ windowed.length ∧ 12 % 4 = 0 ∧ ¬ PadMisplaced windowed 2 12 ∧
    ¬ PadMisplaced windowed 10 4 ∧ defaultCfg.unknownPolicy = .zero ∧ ¬ NonDigitPresent rejecting windowed 2 12 := by
  simp only [PadMisplaced, NonDigitPresent]
  decide

/-- TV3: one byte, and TV2: seven. -/
theorem witness_DecodedLengthLaw :
    exec (.decW (.present 16) 10 4) (withSource (.text windowed)) =
      .next (afterResponse (withSource (.text windowed)) ⟨⟨0, 0, 0, 0⟩, .text windowed⟩ [] (okBytes [0x66])) ∧
    exec (.decW (.present 16) 2 12) (withSource (.text windowed)) =
      .next (afterResponse (withSource (.text windowed)) ⟨⟨0, 0, 0, 0⟩, .text windowed⟩ []
        (okBytes [0x66, 0x6F, 0x6F, 0x62, 0x61, 0x72, 0x66])) := ⟨rfl, rfl⟩

/-- `"Zg=="` and `"Zh=="` (TD12); `"Zm8="` and `"Zm9="` (TD13). -/
theorem witness_DiscardedBitsAreNotChecked :
    defaultCfg.unknownPolicy = .zero ∧ (0x67 : CodeUnit) ≠ pad ∧ (0x68 : CodeUnit) ≠ pad ∧
    (decVal defaultCfg 0x67).toNat / 16 = (decVal defaultCfg 0x68).toNat / 16 ∧
    (0x38 : CodeUnit) ≠ pad ∧ (0x39 : CodeUnit) ≠ pad ∧
    (decVal defaultCfg 0x38).toNat / 4 = (decVal defaultCfg 0x39).toNat / 4 := by decide

/-- An error (S6), digits only (S4), and a non-digit (TD14). -/
theorem witness_RejectPolicyAddsOneCause :
    rejecting = { defaultCfg with unknownPolicy := .reject } ∧
    exec (.decW (.present 4) 0 4) (withSource (.text zPadInside)) =
      .next (afterResponse (withSource (.text zPadInside)) ⟨⟨0, 0, 0, 0⟩, .text zPadInside⟩ [] formatErrorResponse) ∧
    exec (.decW (.present 4) 0 4) (withSource (.text zgPadPad)) =
      .next (afterResponse (withSource (.text zgPadPad)) ⟨⟨0, 0, 0, 0⟩, .text zgPadPad⟩ [] (okBytes [0x66])) ∧
    ¬ NonDigitPresent defaultCfg zgPadPad 0 4 ∧
    exec (.decW (.present 4) 0 4) (withSource (.text zDollar)) =
      .next (afterResponse (withSource (.text zDollar)) ⟨⟨0, 0, 0, 0⟩, .text zDollar⟩ [] (okBytes [0x64])) ∧
    NonDigitPresent defaultCfg zDollar 0 4 := by
  refine ⟨rfl, rfl, rfl, ?_, rfl, ?_⟩ <;> simp only [NonDigitPresent] <;> decide

/-- TD14: `"Z$=="` becomes `"ZA=="` (41_decode.md R117). -/
theorem witness_UnrecognisedDecodesAsLetterA :
    defaultCfg.unknownPolicy = .zero ∧ defaultCfg.SymbolsLegal ∧
    (zDollar.map fun u => if isDigit defaultCfg u = false ∧ u ≠ pad then 0x41 else u) = [0x5A, 0x41, 0x3D, 0x3D] :=
  ⟨rfl, defaultCfg_symbolsLegal, by decide⟩

/-- Two sequences that differ before and after the window of six elements at index 1. -/
theorem witness_OnlyTheWindowInfluencesTheResponse :
    (0x55 :: foobar ++ [0xAA] : List Byte).length = padded.length ∧ (0x55 :: foobar ++ [0xAA] : List Byte) ≠ padded ∧
    (∀ k, k < 6 → (0x55 :: foobar ++ [0xAA] : List Byte)[1 + k]? = padded[1 + k]?) ∧
    (∀ k, k < 4 → ([0x78, 0x5A, 0x6D, 0x39, 0x76, 0x79] : List CodeUnit)[1 + k]? = ([0x3D, 0x5A, 0x6D, 0x39, 0x76, 0x3D] : List CodeUnit)[1 + k]?) ∧
    ([0x78, 0x5A, 0x6D, 0x39, 0x76, 0x79] : List CodeUnit).length = ([0x3D, 0x5A, 0x6D, 0x39, 0x76, 0x3D] : List CodeUnit).length ∧ ([0x78, 0x5A, 0x6D, 0x39, 0x76, 0x79] : List CodeUnit) ≠ [0x3D, 0x5A, 0x6D, 0x39, 0x76, 0x3D] := by decide

/-- P1: "foobar" and the state in which its text is handed over. -/
theorem witness_DecodeOfEncodeIsTheWindow :
    (only encFoobar).inputs = .command encFoobar :: [] ∧ encFoobar.source = .bytes foobar ∧
    (only encFoobar).cfg.SymbolsLegal ∧ 4 * ((foobar.length + 2) / 3) ≤ maxLen ∧ 1 + 4 ≤ foobar.length ∧
    (withSource (.text zm9vYmFy)).cfg = (only encFoobar).cfg ∧
    (withSource (.text zm9vYmFy)).inputs = .command ⟨⟨0, 0, 0, 0⟩, .text zm9vYmFy⟩ :: [] :=
  ⟨rfl, rfl, defaultCfg_symbolsLegal, by decide, by decide, rfl, rfl⟩

/-- P4 steps 1 and 2. -/
theorem witness_WrappedTextDoesNotDecode :
    (withSource (.bytes (zeros 58))).cfg = defaultCfg ∧
    (withSource (.bytes (zeros 58))).inputs = .command ⟨⟨0, 0, 0, 0⟩, .bytes (List.replicate 58 0)⟩ :: [] ∧
    (lettersA 76 ++ [0x0D, 0x0A, 0x41, 0x41, 0x3D, 0x3D]).length = 82 ∧
    (withSource (.text (lettersA 76 ++ [0x0D, 0x0A, 0x41, 0x41, 0x3D, 0x3D]))).cfg = defaultCfg := by decide

end Sys2Proof.Tests
end

/-! ### The state family (10_state.md): rules about the step -/

namespace Sys2Proof.Machine

/-- A step on a command that `Step(Cfg, cmd)` answers delivers that response, whatever the rest of the state. -/
theorem step_of_respond_some {s : State} {c : Command} {rest : List Input} {r : Response}
    (hin : s.inputs = .command c :: rest) (hr : respond s.cfg c = some r) :
    step s = .next (s.complete c rest r) := by
  obtain ⟨i, hd, ha⟩ := respond_eq_some.1 hr
  rw [step_command hin hd, exec_eq_transact]
  exact transact_ok hin ha

/-- A reserved descriptor is refused under its own name (30_encoding.md R80). -/
theorem step_of_decode_error {s : State} {c : Command} {rest : List Input} {why : Reserved}
    (hin : s.inputs = .command c :: rest) (hd : decode c.words = .error why) :
    step s = .refused (.reserved why) := by
  simp only [step, takeInput, hin, hd]

/-- A step on a command that `Step(Cfg, cmd)` does not answer is refused: its descriptor is reserved, or its
meaning refuses it. -/
theorem step_of_respond_none {s : State} {c : Command} {rest : List Input}
    (hin : s.inputs = .command c :: rest) (hr : respond s.cfg c = none) : ∃ why, step s = .refused why := by
  cases hd : decode c.words with
  | error why => exact ⟨.reserved why, step_of_decode_error hin hd⟩
  | ok i =>
    cases ha : answerOf i s.cfg c.source with
    | ok r =>
      have answered : respond s.cfg c = some r := respond_eq_some.2 ⟨i, hd, ha⟩
      rw [hr] at answered
      cases answered
    | error why =>
      refine ⟨why, ?_⟩
      rw [step_command hin hd, exec_eq_transact]
      exact transact_error hin ha

/-! ### The state family (10_state.md): entries of the two tables -/

/-- A number that fits the width is kept by `BitVec.ofNat`. -/
theorem toNat_ofNat_of_lt {w n : Nat} (h : n < 2 ^ w) : (BitVec.ofNat w n).toNat = n := by
  rw [BitVec.toNat_ofNat, Nat.mod_eq_of_lt h]

theorem encRom_upper (cfg : Cfg) {i : Nat} (h : i ≤ 25) :
    encRom cfg (BitVec.ofNat 6 i) = BitVec.ofNat 16 (0x41 + i) := by
  have hi : (BitVec.ofNat 6 i).toNat = i := toNat_ofNat_of_lt (by omega)
  simp only [encRom, hi, h, if_true]

theorem encRom_lower (cfg : Cfg) {i : Nat} (hlow : 26 ≤ i) (hhigh : i ≤ 51) :
    encRom cfg (BitVec.ofNat 6 i) = BitVec.ofNat 16 (0x61 + (i - 26)) := by
  have hi : (BitVec.ofNat 6 i).toNat = i := toNat_ofNat_of_lt (by omega)
  have hnot : ¬ i ≤ 25 := by omega
  simp only [encRom, hi, hnot, hhigh, if_true, if_false]

theorem encRom_decimal (cfg : Cfg) {i : Nat} (hlow : 52 ≤ i) (hhigh : i ≤ 61) :
    encRom cfg (BitVec.ofNat 6 i) = BitVec.ofNat 16 (0x30 + (i - 52)) := by
  have hi : (BitVec.ofNat 6 i).toNat = i := toNat_ofNat_of_lt (by omega)
  have hnot : ¬ i ≤ 25 := by omega
  have hnot' : ¬ i ≤ 51 := by omega
  simp only [encRom, hi, hnot, hnot', hhigh, if_true, if_false]

@[simp] theorem encRom_zero (cfg : Cfg) : encRom cfg 0 = 0x41 := rfl

@[simp] theorem encRom_62 (cfg : Cfg) : encRom cfg 62 = cfg.sym62 := rfl

@[simp] theorem encRom_63 (cfg : Cfg) : encRom cfg 63 = cfg.sym63 := rfl

/-- Under the constraints of 00_scope.md R9 and R10 every digit is below 128, so `IsDigit` is membership alone. -/
theorem isDigit_iff_of_legal {cfg : Cfg} (h : cfg.SymbolsLegal) {c : CodeUnit} :
    isDigit cfg c = true ↔ (∃ v, encRom cfg v = c) ∨ c = cfg.alt62 ∨ c = cfg.alt63 := by
  have ⟨_, _, ⟨halt62, _⟩, ⟨halt63, _⟩, _⟩ := h
  rw [isDigit_iff, and_iff_right_iff_imp]
  rintro (⟨v, rfl⟩ | rfl | rfl)
  · exact encRom_lt h v
  · exact halt62
  · exact halt63

/-- `A` is the only digit of value 0. -/
theorem eq_letterA_of_decVal_zero {cfg : Cfg} (h : cfg.SymbolsLegal) {c : CodeUnit}
    (hc : isDigit cfg c = true) (hv : decVal cfg c = 0) : c = 0x41 := by
  obtain ⟨v, rfl⟩ | rfl | rfl := (isDigit_iff_of_legal h).1 hc
  · rw [decVal_encRom h] at hv
    rw [hv, encRom_zero]
  · rw [decVal_alt62 h] at hv
    exact absurd hv (by decide)
  · rw [decVal_alt63 h] at hv
    exact absurd hv (by decide)

/-! ### How many digits there are

The digits are listed without repetition as the 64 entries of `ENC_ROM` and the two alternates; the 128 code units
that `IsDigit` accepts are a permutation of that list. -/

/-- The accepted input characters: the alphabet and the two alternates (10_state.md R37). -/
def digitUnits (cfg : Cfg) : List CodeUnit := cfg.alt62 :: cfg.alt63 :: digits.map (encRom cfg)

theorem length_digitUnits (cfg : Cfg) : (digitUnits cfg).length = 66 := by
  simp [digitUnits, digits]

theorem mem_digitUnits {cfg : Cfg} (h : cfg.SymbolsLegal) {c : CodeUnit} :
    c ∈ digitUnits cfg ↔ isDigit cfg c = true := by
  have alphabet : c ∈ digits.map (encRom cfg) ↔ ∃ v, encRom cfg v = c := by
    simp only [List.mem_map, mem_digits, true_and]
  rw [isDigit_iff_of_legal h, digitUnits, List.mem_cons, List.mem_cons, alphabet, ← or_assoc, or_comm]

theorem nodup_digits : digits.Nodup := by decide

theorem nodup_digitUnits {cfg : Cfg} (h : cfg.SymbolsLegal) : (digitUnits cfg).Nodup := by
  have alphabet : (digits.map (encRom cfg)).Nodup := nodup_digits.map fun _ _ => encRom_injective h
  have ⟨_, _, _, _, _, _, _, _, _, halts⟩ := h
  simp [digitUnits, alphabet, halts, encRom_ne_alt62 h, encRom_ne_alt63 h]

/-- The numbers below 128 that `IsDigit` accepts are those of the listed digits. -/
theorem filter_isDigit_perm_digitUnits {cfg : Cfg} (h : cfg.SymbolsLegal) :
    ((List.range 128).filter fun n => isDigit cfg (BitVec.ofNat 16 n)).Perm
      ((digitUnits cfg).map BitVec.toNat) := by
  have listed : ((digitUnits cfg).map BitVec.toNat).Nodup :=
    (nodup_digitUnits h).map fun _ _ => BitVec.eq_of_toNat_eq
  refine (List.perm_ext_iff_of_nodup (List.nodup_range.filter _) listed).2 fun n => ?_
  simp only [List.mem_filter, List.mem_range, List.mem_map, mem_digitUnits h]
  constructor
  · rintro ⟨hn, hd⟩
    exact ⟨BitVec.ofNat 16 n, hd, toNat_ofNat_of_lt (by omega)⟩
  · rintro ⟨c, hd, rfl⟩
    exact ⟨(isDigit_iff.1 hd).1, by rwa [BitVec.ofNat_toNat, BitVec.setWidth_eq]⟩

theorem length_filter_isDigit {cfg : Cfg} (h : cfg.SymbolsLegal) :
    ((List.range 128).filter fun n => isDigit cfg (BitVec.ofNat 16 n)).length = 66 := by
  rw [(filter_isDigit_perm_digitUnits h).length_eq, List.length_map, length_digitUnits]

/-- An entry of `DEC_ROM` outside the alphabet: 62 and 63 for the alternates, else 0 (10_state.md R37). -/
theorem decRom_of_not_alphabet {cfg : Cfg} {index : BitVec 7} (h : ∀ v, encRom cfg v ≠ index.setWidth 16) :
    decRom cfg index =
      if index.setWidth 16 = cfg.alt62 then 62 else if index.setWidth 16 = cfg.alt63 then 63 else 0 :=
  tableEntry_of_none (alphabetIndex_eq_none.2 h)

/-- An entry of `DEC_ROM` is `DecVal` of the code unit that indexes it (41_decode.md R117). -/
theorem decRom_eq_decVal (cfg : Cfg) (index : BitVec 7) : decRom cfg index = decVal cfg (index.setWidth 16) := by
  have hlt : (index.setWidth 16).toNat < 128 := by
    rw [BitVec.toNat_setWidth]
    omega
  exact (decVal_of_lt hlt).symm

/-! ### The statements of the family -/

/-- Settles O8: every command is one transaction, and a transaction that answers completes the head of the inputs. -/
theorem execFrame : Obligations.ExecFrame := by
  intro i s t h
  rw [exec_eq_transact] at h
  obtain ⟨c, rest, r, hin, -, rfl⟩ := transact_next_iff.1 h
  exact ⟨c, rest, r, hin, complete_eq_afterResponse s c rest r⟩

/-- Settles O9, by the three cases of a step; the response in the third is the one of `Step(Cfg, cmd)`. -/
theorem stepFrame : Obligations.StepFrame := by
  intro s t h
  obtain ⟨hin, rfl⟩ | ⟨rest, hin, rfl⟩ | ⟨c, rest, i, r, hin, hd, ha, rfl⟩ := step_next_iff.1 h
  · exact .inl ⟨hin, rfl⟩
  · exact .inr (.inl ⟨rest, hin, rfl⟩)
  · exact .inr (.inr ⟨c, rest, r, hin, respond_eq_some.2 ⟨i, hd, ha⟩, complete_eq_afterResponse s c rest r⟩)

/-- Settles O10, by whether `Step(Cfg, cmd)` answers the command. -/
theorem responseDependsOnTheCommandAlone : Obligations.ResponseDependsOnTheCommandAlone :=
  fun _ _ _ hin => ⟨fun _ hr => step_of_respond_some hin hr, step_of_respond_none hin⟩

/-- Settles O36, one range of entries at a time. -/
theorem encRomEntries : Obligations.EncRomEntries :=
  fun cfg h =>
    ⟨fun _ => encRom_upper cfg, fun _ => encRom_lower cfg, fun _ => encRom_decimal cfg, encRom_62 cfg,
      encRom_63 cfg, fun _ _ => encRom_injective h⟩

/-- Settles O37: the entries are read through `DecVal`, and the digits counted through `digitUnits`. -/
theorem decRomEntries : Obligations.DecRomEntries := by
  intro cfg h
  refine ⟨?alphabet, ?alt62, ?alt63, ?others, fun v => ⟨encRom_ne_alt62 h v, encRom_ne_alt63 h v⟩,
    length_filter_isDigit h, fun _ => eq_letterA_of_decVal_zero h⟩
  case alphabet =>
    intro index v hv
    rw [decRom_eq_decVal, hv, decVal_encRom h]
  case alt62 =>
    intro index hindex
    rw [decRom_eq_decVal, hindex, decVal_alt62 h]
  case alt63 =>
    intro index hindex
    rw [decRom_eq_decVal, hindex, decVal_alt63 h]
  case others =>
    intro index hrom h62 h63
    rw [decRom_of_not_alphabet fun v => (hrom v).symm, if_neg h62, if_neg h63]

/-- Settles O6, by the step's equation on a defined command. -/
theorem stepRunsTheDecodedCommand : Obligations.StepRunsTheDecodedCommand :=
  fun _ _ _ _ => step_command

/-- Settles O12: the default parameters are legal, and no transaction is recorded after reset. -/
theorem resetMeetsTheInvariant : Obligations.ResetMeetsTheInvariant where
  legal := defaultCfg_legal
  responses := List.forall_mem_nil _
  answered := List.forall_mem_nil _

/-- Settles O38, by evaluating the 128 entries of the table. -/
theorem decRomDefaultTable : Obligations.DecRomDefaultTable := by
  unfold Obligations.DecRomDefaultTable
  decide

end Sys2Proof.Machine

/-! ### The memory family (20_memory.md): a run over several commands -/

namespace Sys2Proof.Machine

/-- The transaction a command makes: the command beside the response of `Step(Cfg, cmd)`, where there is one. -/
def transactionOf (cfg : Cfg) (c : Command) : Option Transaction := (respond cfg c).map (Transaction.mk c)

theorem transactionOf_some {cfg : Cfg} {c : Command} {r : Response} (h : respond cfg c = some r) :
    transactionOf cfg c = some ⟨c, r⟩ := by
  rw [transactionOf, h, Option.map_some]

theorem run_succ_of_step_next {s t : State} (h : step s = .next t) (k : Nat) :
    Sys2Proof.core.run (k + 1) s = Sys2Proof.core.run k t := by
  have hcore : Sys2Proof.core.step s = .next t := h
  simp only [Host.Core.run, hcore]

theorem run_succ_of_step_refused {s : State} {why : Refusal} (h : step s = .refused why) (k : Nat) :
    Sys2Proof.core.run (k + 1) s = .refused why := by
  have hcore : Sys2Proof.core.step s = .refused why := h
  simp only [Host.Core.run, hcore]

/-- A run over commands reaches a state exactly when `Step` answers every one of them, and that state then records
the transaction of each (20_memory.md R57, R61). -/
theorem run_commands_next_iff {cs : List Command} {s t : State} (hin : s.inputs = cs.map .command) :
    Sys2Proof.core.run cs.length s = .next t ↔
      (∀ c ∈ cs, (respond s.cfg c).isSome) ∧
        t = { cfg := s.cfg, inputs := [], completed := s.completed ++ cs.filterMap (transactionOf s.cfg) } := by
  induction cs generalizing s with
  | nil =>
    obtain ⟨cfg, inputs, completed⟩ := s
    obtain rfl : inputs = [] := hin
    simp only [List.not_mem_nil, false_implies, implies_true, true_and, List.filterMap_nil, List.append_nil]
    exact ⟨fun h => (Host.Outcome.next.inj h).symm, fun h => congrArg Host.Outcome.next h.symm⟩
  | cons c cs ih =>
    rw [List.length_cons]
    cases hr : respond s.cfg c with
    | none =>
      obtain ⟨why, hstep⟩ := step_of_respond_none hin hr
      simp [run_succ_of_step_refused hstep, hr]
    | some r =>
      rw [run_succ_of_step_next (step_of_respond_some hin hr), ih rfl]
      simp [hr, transactionOf_some hr]

/-! ### The statements of the memory family -/

/-- Settles O14: a run is decided by which commands `Step` answers and records the transaction of each, and a
permutation keeps both. -/
theorem orderOfCommandsIsInvisible : Obligations.OrderOfCommandsIsInvisible := by
  intro s s' t cs cs' hcfg hdone hdone' hin hin' hperm hrun
  obtain ⟨hanswered, rfl⟩ := (run_commands_next_iff hin).1 hrun
  have hanswered' : ∀ c ∈ cs', (respond s'.cfg c).isSome := fun c hc =>
    hcfg ▸ hanswered c (hperm.mem_iff.2 hc)
  refine ⟨_, (run_commands_next_iff hin').2 ⟨hanswered', rfl⟩, hcfg, rfl, ?_⟩
  rw [hcfg, hdone, hdone']
  exact (hperm.filterMap _).symm

/-- Settles O41: the fields in arithmetic, each of which is a slice of the group's value as its bytes are below 256. -/
theorem encoderPackingIsMostSignificantFirst : Obligations.EncoderPackingIsMostSignificantFirst := by
  intro b0 b1 b2 v
  rw [toNat_field0, toNat_field1, toNat_field2, toNat_field3]
  have h1 := b1.isLt
  have h2 := b2.isLt
  exact ⟨⟨rfl, rfl, rfl, rfl⟩, by omega, by omega, by omega, by omega⟩

/-- Settles O42: the bytes in arithmetic, each of which is a slice of the quartet's value as its digits are below 64. -/
theorem decoderPackingIsMostSignificantFirst : Obligations.DecoderPackingIsMostSignificantFirst := by
  intro d0 d1 d2 d3 v
  rw [toNat_byte0, toNat_byte1, toNat_byte2]
  have h1 := d1.isLt
  have h2 := d2.isLt
  have h3 := d3.isLt
  exact ⟨⟨rfl, rfl, rfl⟩, by omega, by omega, by omega⟩

end Sys2Proof.Machine

/-! ### The encoding family (30_encoding.md): what the encoder writes into a descriptor -/

namespace Sys2Proof

theorem SrcOperand.presentBit_le (src : SrcOperand) : src.presentBit ≤ 1 := by
  cases src <;> simp [SrcOperand.presentBit]

theorem LineBreakMode.bit_le (mode : LineBreakMode) : mode.bit ≤ 1 := by
  cases mode <;> simp [LineBreakMode.bit]

/-- `F` of a command: the number of its row (R74, R79). -/
def Instr.form : Instr → Nat
  | .enc _ => 0
  | .encL _ _ => 1
  | .encWL _ _ _ _ => 2
  | .dec _ => 3
  | .decW _ _ _ => 4

/-- `L` of a command: the bit of its mode, 0 in a form without one (R74, R79). -/
def Instr.modeBit : Instr → Nat
  | .enc _ => 0
  | .encL _ mode => mode.bit
  | .encWL _ _ _ mode => mode.bit
  | .dec _ => 0
  | .decW _ _ _ => 0

/-- `CMD` is made of `F` and `L` (R74, R79). -/
theorem Instr.cmd_eq (i : Instr) : i.cmd = 2 * i.form + i.modeBit := by
  cases i <;> rfl

theorem Instr.modeBit_le (i : Instr) : i.modeBit ≤ 1 := by
  cases i with
  | enc _ => exact Nat.zero_le 1
  | encL _ mode => exact mode.bit_le
  | encWL _ _ _ mode => exact mode.bit_le
  | dec _ => exact Nat.zero_le 1
  | decW _ _ _ => exact Nat.zero_le 1

theorem Instr.src_wf {i : Instr} (h : i.wf = true) : i.src.wf = true := by
  cases i <;> simp_all [Instr.wf, Instr.src]

theorem encode_w0_lt (i : Instr) : i.cmd + 256 * i.src.presentBit < 512 := by
  have hcmd := i.cmd_lt
  have hbit := i.src.presentBit_le
  omega

/-- Any field of `W0`, as a field of `CMD + 256 * P` (R83). -/
theorem bits_encode_w0 (i : Instr) (hi lo : Nat) :
    bits (encode i).w0 hi lo = (i.cmd + 256 * i.src.presentBit) / 2 ^ lo % 2 ^ (hi - lo + 1) :=
  bits_ofNat (by have := encode_w0_lt i; omega)

theorem encode_w0_cmdHigh (i : Instr) : bits (encode i).w0 7 4 = 0 := by
  have hcmd := i.cmd_lt
  rw [bits_encode_w0]
  omega

theorem encode_w0_form (i : Instr) : bits (encode i).w0 3 1 = i.form := by
  have hcmd := i.cmd_lt
  have hmode := i.modeBit_le
  rw [i.cmd_eq] at hcmd
  rw [bits_encode_w0, i.cmd_eq]
  omega

theorem encode_w0_modeBit (i : Instr) : bits (encode i).w0 0 0 = i.modeBit := by
  have hmode := i.modeBit_le
  rw [bits_encode_w0, i.cmd_eq]
  omega

theorem encode_w0_present (i : Instr) : bits (encode i).w0 8 8 = i.src.presentBit := by
  have hcmd := i.cmd_lt
  have hbit := i.src.presentBit_le
  rw [bits_encode_w0]
  omega

theorem encode_w0_high (i : Instr) : bits (encode i).w0 31 9 = 0 := by
  have hlt := encode_w0_lt i
  rw [bits_encode_w0]
  omega

/-- The low 8 bits of `W0` are `CMD` (R71). -/
theorem setWidth_encode_w0 (i : Instr) : (encode i).w0.setWidth 8 = BitVec.ofNat 8 i.cmd := by
  apply BitVec.eq_of_toNat_eq
  simp only [encode, BitVec.toNat_setWidth, BitVec.toNat_ofNat]
  omega

/-- A length that a descriptor can express fits the 31 bits of its field (R12, R71). -/
theorem SrcOperand.lt_of_wf_present {n : Nat} (h : (SrcOperand.present n).wf = true) : n < 2 ^ 31 := by
  have hn := SrcOperand.wf_present.1 h
  simp only [maxLen] at hn
  omega

/-- Any field of the length word of a source that a descriptor can express. -/
theorem bits_lengthWord {n hi lo : Nat} (h : (SrcOperand.present n).wf = true) :
    bits (SrcOperand.present n).lengthWord hi lo = n / 2 ^ lo % 2 ^ (hi - lo + 1) := by
  have hn := SrcOperand.lt_of_wf_present h
  exact bits_ofNat (by omega)

theorem lengthWord_high {src : SrcOperand} (h : src.wf = true) : bits src.lengthWord 31 31 = 0 := by
  cases src with
  | absent => rfl
  | present n =>
    have hn := SrcOperand.lt_of_wf_present h
    rw [bits_lengthWord h]
    omega

theorem lengthWord_of_presentBit_zero {src : SrcOperand} (h : src.presentBit = 0) : src.lengthWord = 0 := by
  cases src with
  | absent => rfl
  | present n => cases h

/-! ### Reading an encoded descriptor -/

/-- The source operand read back (R77). -/
theorem src_encode {i : Instr} (h : i.src.wf = true) : (encode i).src = i.src := by
  rw [Descriptor.src, encode_w0_present, encode]
  cases hs : i.src with
  | absent => rfl
  | present n =>
    rw [hs] at h
    have hn := SrcOperand.lt_of_wf_present h
    rw [SrcOperand.presentBit, if_pos rfl, bits_lengthWord h]
    congr 1
    omega

/-- The line-break mode read back: it is `L` (R74). -/
theorem mode_encode {i : Instr} {mode : LineBreakMode} (h : i.modeBit = mode.bit) : (encode i).mode = mode := by
  rw [Descriptor.mode, encode_w0_modeBit, h]
  cases mode <;> rfl

/-- A descriptor that meets none of the conditions outside its form is read by its form. -/
theorem decode_eq_decodeForm {d : Descriptor} (hcmd : bits d.w0 7 4 = 0) (hw0 : bits d.w0 31 9 = 0)
    (hw3 : bits d.w3 31 31 = 0) (habsent : bits d.w0 8 8 = 0 → d.w3 = 0) : decode d = decodeForm d := by
  rw [decode, if_neg (by omega), if_neg (by omega), if_neg (by omega), if_neg (by tauto)]

theorem decode_encode_eq_decodeForm {i : Instr} (h : i.wf = true) : decode (encode i) = decodeForm (encode i) :=
  decode_eq_decodeForm (encode_w0_cmdHigh i) (encode_w0_high i) (lengthWord_high (Instr.src_wf h)) fun hbit =>
    lengthWord_of_presentBit_zero (encode_w0_present i ▸ hbit)

theorem withoutMode_ok_iff {d : Descriptor} {r : Except Reserved Instr} {i : Instr} :
    withoutMode d r = .ok i ↔ bits d.w0 0 0 = 0 ∧ r = .ok i :=
  ⟨withoutMode_ok, fun ⟨hbit, hr⟩ => by rw [withoutMode, if_pos hbit, hr]⟩

theorem shortFormat_ok_iff {d : Descriptor} {i j : Instr} :
    shortFormat d i = .ok j ↔ (d.w1 = 0 ∧ d.w2 = 0) ∧ i = j := by
  constructor
  · intro h
    obtain ⟨hw1, hw2, rfl⟩ := shortFormat_ok h
    exact ⟨⟨hw1, hw2⟩, rfl⟩
  · rintro ⟨hw, rfl⟩
    rw [shortFormat, if_pos hw]

/-- Everything the form of a descriptor can be read as: the row `F` selects, under that row's own conditions on `L`
and on the window words (R79, R80). -/
theorem decodeForm_ok_iff {d : Descriptor} {i : Instr} :
    decodeForm d = .ok i ↔
      (bits d.w0 3 1 = 0 ∧ bits d.w0 0 0 = 0 ∧ (d.w1 = 0 ∧ d.w2 = 0) ∧ .enc d.src = i) ∨
      (bits d.w0 3 1 = 1 ∧ (d.w1 = 0 ∧ d.w2 = 0) ∧ .encL d.src d.mode = i) ∨
      (bits d.w0 3 1 = 2 ∧ .encWL d.src d.w1.toInt d.w2.toInt d.mode = i) ∨
      (bits d.w0 3 1 = 3 ∧ bits d.w0 0 0 = 0 ∧ (d.w1 = 0 ∧ d.w2 = 0) ∧ .dec d.src = i) ∨
      (bits d.w0 3 1 = 4 ∧ bits d.w0 0 0 = 0 ∧ .decW d.src d.w1.toInt d.w2.toInt = i) := by
  unfold decodeForm
  split <;> simp_all [withoutMode_ok_iff, shortFormat_ok_iff]

theorem Instr.wf_encWL {src : SrcOperand} {offset length : Int} {mode : LineBreakMode} :
    (Instr.encWL src offset length mode).wf = true ↔ src.wf = true ∧ intOk offset = true ∧ intOk length = true := by
  simp only [Instr.wf, Bool.and_eq_true, and_assoc]

theorem Instr.wf_decW {src : SrcOperand} {offset length : Int} :
    (Instr.decW src offset length).wf = true ↔ src.wf = true ∧ intOk offset = true ∧ intOk length = true := by
  simp only [Instr.wf, Bool.and_eq_true, and_assoc]

theorem decodeForm_encode {i : Instr} (h : i.wf = true) : decodeForm (encode i) = .ok i := by
  have hsrc := src_encode (Instr.src_wf h)
  have hform := encode_w0_form i
  have hbit := encode_w0_modeBit i
  rw [decodeForm_ok_iff, hsrc]
  cases i with
  | enc src => exact .inl ⟨hform, hbit, ⟨rfl, rfl⟩, rfl⟩
  | encL src mode =>
    have hmode : (encode (.encL src mode)).mode = mode := mode_encode rfl
    exact .inr (.inl ⟨hform, ⟨rfl, rfl⟩, by rw [hmode]; rfl⟩)
  | encWL src offset length mode =>
    obtain ⟨-, hoffset, hlength⟩ := Instr.wf_encWL.1 h
    have hmode : (encode (.encWL src offset length mode)).mode = mode := mode_encode rfl
    have hw1 : (encode (.encWL src offset length mode)).w1.toInt = offset := toInt_ofInt_of_intOk hoffset
    have hw2 : (encode (.encWL src offset length mode)).w2.toInt = length := toInt_ofInt_of_intOk hlength
    exact .inr (.inr (.inl ⟨hform, by rw [hmode, hw1, hw2]; rfl⟩))
  | dec src => exact .inr (.inr (.inr (.inl ⟨hform, hbit, ⟨rfl, rfl⟩, rfl⟩)))
  | decW src offset length =>
    obtain ⟨-, hoffset, hlength⟩ := Instr.wf_decW.1 h
    have hw1 : (encode (.decW src offset length)).w1.toInt = offset := toInt_ofInt_of_intOk hoffset
    have hw2 : (encode (.decW src offset length)).w2.toInt = length := toInt_ofInt_of_intOk hlength
    exact .inr (.inr (.inr (.inr ⟨hform, hbit, by rw [hw1, hw2]; rfl⟩)))

/-! ### Reading any descriptor -/

theorem presentBit_src (d : Descriptor) : d.src.presentBit = bits d.w0 8 8 := by
  have hlt := bits_lt d.w0 8 8
  rw [Descriptor.src]
  split
  · rename_i hbit
    exact hbit.symm
  · show 0 = _
    omega

theorem wf_src (d : Descriptor) : d.src.wf = true := by
  have hlt := bits_lt d.w3 30 0
  rw [Descriptor.src]
  split
  · exact SrcOperand.wf_present.2 (by simp only [maxLen]; omega)
  · rfl

/-- `W3` is the length word of the source read from the descriptor, when its reserved bits are 0 (R71, R80). -/
theorem lengthWord_src {d : Descriptor} (hw3 : bits d.w3 31 31 = 0) (habsent : bits d.w0 8 8 = 0 → d.w3 = 0) :
    d.src.lengthWord = d.w3 := by
  have hlt := bits_lt d.w0 8 8
  have hword := d.w3.isLt
  rw [Descriptor.src]
  split
  · apply BitVec.eq_of_toNat_eq
    simp only [bits] at hw3
    simp only [SrcOperand.lengthWord, bits, BitVec.toNat_ofNat]
    omega
  · exact (habsent (by omega)).symm

theorem bit_mode (d : Descriptor) : d.mode.bit = bits d.w0 0 0 := by
  have hlt := bits_lt d.w0 0 0
  rw [Descriptor.mode]
  split
  · rename_i hbit
    exact hbit.symm
  · show 0 = _
    omega

/-- `W0` is made of its defined fields, when its reserved bits are 0 (R71, R74). -/
theorem toNat_w0 {d : Descriptor} (hcmd : bits d.w0 7 4 = 0) (hw0 : bits d.w0 31 9 = 0) :
    d.w0.toNat = 2 * bits d.w0 3 1 + bits d.w0 0 0 + 256 * bits d.w0 8 8 := by
  have hlt := d.w0.isLt
  simp only [bits] at hcmd hw0 ⊢
  omega

/-- What a command read from a form keeps of its descriptor: every field, and operands in range (R77). -/
theorem decodeForm_ok_fields {d : Descriptor} {i : Instr} (h : decodeForm d = .ok i) :
    i.wf = true ∧ i.src = d.src ∧ i.cmd = 2 * bits d.w0 3 1 + bits d.w0 0 0 ∧ i.windowWords = (d.w1, d.w2) := by
  have hsrc := wf_src d
  have hmode := bit_mode d
  obtain ⟨hform, hbit, ⟨hw1, hw2⟩, rfl⟩ | ⟨hform, ⟨hw1, hw2⟩, rfl⟩ | ⟨hform, rfl⟩ |
    ⟨hform, hbit, ⟨hw1, hw2⟩, rfl⟩ | ⟨hform, hbit, rfl⟩ := decodeForm_ok_iff.1 h
  all_goals simp_all [Instr.wf, Instr.src, Instr.cmd, Instr.windowWords, intOk_toInt]

theorem encode_of_decode {d : Descriptor} {i : Instr} (h : decode d = .ok i) : encode i = d := by
  obtain ⟨hcmd, hw0, hw3, habsent, hform⟩ := decode_ok_parts h
  obtain ⟨-, hsrc, hcode, hwindow⟩ := decodeForm_ok_fields hform
  rw [encode, hsrc, hcode, hwindow, presentBit_src, lengthWord_src hw3 habsent, ← toNat_w0 hcmd hw0,
    BitVec.ofNat_toNat, BitVec.setWidth_eq]

theorem wf_of_decode {d : Descriptor} {i : Instr} (h : decode d = .ok i) : i.wf = true := by
  obtain ⟨-, -, -, -, hform⟩ := decode_ok_parts h
  exact (decodeForm_ok_fields hform).1

/-! ### Reserved descriptors (R80) -/

/-- A descriptor is read as a command exactly when no condition of R80 holds. -/
theorem exists_decode_ok_iff {d : Descriptor} : (∃ i, decode d = .ok i) ↔ ¬ Machine.ReservedDescriptor d := by
  constructor
  · rintro ⟨i, h⟩
    obtain ⟨hcmd, hw0, hw3, habsent, hform⟩ := decode_ok_parts h
    obtain ⟨hF, hL, hwindow, rfl⟩ | ⟨hF, hwindow, rfl⟩ | ⟨hF, rfl⟩ | ⟨hF, hL, hwindow, rfl⟩ | ⟨hF, hL, rfl⟩ :=
      decodeForm_ok_iff.1 hform
    all_goals simp_all [Machine.ReservedDescriptor]
  · intro h
    have hFlt := bits_lt d.w0 3 1
    have hLlt := bits_lt d.w0 0 0
    simp only [Machine.ReservedDescriptor, not_or] at h
    obtain ⟨hcmd, hF, hL, hw0, hw3, habsent, hwindow⟩ := h
    rw [decode_eq_decodeForm (by omega) (by omega) (by omega) (by tauto)]
    simp only [decodeForm_ok_iff]
    obtain hF | hF | hF | hF | hF : bits d.w0 3 1 = 0 ∨ bits d.w0 3 1 = 1 ∨ bits d.w0 3 1 = 2 ∨
      bits d.w0 3 1 = 3 ∨ bits d.w0 3 1 = 4 := by omega
    · exact ⟨_, .inl ⟨hF, by omega, by tauto, rfl⟩⟩
    · exact ⟨_, .inr (.inl ⟨hF, by tauto, rfl⟩)⟩
    · exact ⟨_, .inr (.inr (.inl ⟨hF, rfl⟩))⟩
    · exact ⟨_, .inr (.inr (.inr (.inl ⟨hF, by omega, by tauto, rfl⟩)))⟩
    · exact ⟨_, .inr (.inr (.inr (.inr ⟨hF, by omega, rfl⟩)))⟩

end Sys2Proof

/-! ### The encoding family (30_encoding.md): what a command answers -/

namespace Sys2Proof.Machine

/-- A response has the form of 30_encoding.md R75 and R76 and its text the characters of 40_encode.md R103. -/
abbrev Response.Sound (r : Response) : Prop := r.WellFormed ∧ r.Ascii

theorem errorResponse_sound (e : ErrorKind) : (errorResponse e).Sound :=
  ⟨errorResponse_wellFormed e, fun _ h => by cases h⟩

theorem okBytes_sound {out : List Byte} (h : out.length ≤ maxLen) : (okBytes out).Sound :=
  ⟨okResponse_wellFormed (out := .bytes out) (by simp) h, fun _ h => by cases h⟩

theorem okText_sound {out : List CodeUnit} (h : out.length ≤ maxLen) (hlt : ∀ c ∈ out, c.toNat < 128) :
    (okText out).Sound := by
  refine ⟨okResponse_wellFormed (out := .text out) (by simp) h, fun out' hout => ?_⟩
  obtain rfl := Output.text.inj hout
  exact hlt

/-- The encoder writes code units below 128 (40_encode.md R103). -/
theorem lt_of_mem_applyMode {cfg : Cfg} (hlegal : cfg.Legal) {w : List Byte} {mode : LineBreakMode} {c : CodeUnit}
    (h : c ∈ applyMode cfg (encodeBody cfg w) mode) : c.toNat < 128 := by
  obtain ⟨hsymbols, hbreak⟩ := hlegal
  obtain ⟨i, rfl⟩ | rfl | ⟨-, hc⟩ := mem_applyMode h
  · exact encRom_lt hsymbols i
  · decide
  · exact (hbreak c hc).1

theorem encodeReply_sound {cfg : Cfg} (hlegal : cfg.Legal) {src : SrcOperand} {bytes : List Byte}
    {offset length : Int} {mode : LineBreakMode} {r : Response}
    (h : encodeReply cfg src bytes offset length mode = .ok r) : r.Sound := by
  obtain ⟨-, rfl⟩ | ⟨-, hlen, rfl⟩ := encodeReply_ok_iff.1 h
  · exact errorResponse_sound .invalidArgument
  · exact okText_sound hlen fun _ => lt_of_mem_applyMode hlegal

theorem decodeReply_sound {cfg : Cfg} {src : SrcOperand} {text : List CodeUnit} {offset length : Int}
    {r : Response} (h : decodeReply cfg src text offset length = .ok r) : r.Sound := by
  obtain ⟨e, -, rfl⟩ | ⟨out, -, hlen, rfl⟩ := decodeReply_ok_iff.1 h
  · exact errorResponse_sound e
  · exact okBytes_sound hlen

theorem reply_ne_reserved {x : Except ErrorKind Output} {why : Reserved} : reply x ≠ .error (.reserved why) := by
  intro h
  obtain ⟨_, -, -, hwhy⟩ := reply_error_iff.1 h
  cases hwhy

/-- Every answer of a command is a refusal for its source, or a reply of one of the two units. -/
theorem answerOf_cases (i : Instr) (cfg : Cfg) (source : Source) :
    answerOf i cfg source = .error .sourceMismatch ∨
    (∃ src bytes offset length mode, answerOf i cfg source = encodeReply cfg src bytes offset length mode) ∨
    (∃ src text offset length, answerOf i cfg source = decodeReply cfg src text offset length) := by
  by_cases h : sourceDeclared i source
  · cases i with
    | enc _ => exact .inr (.inl ⟨_, _, _, _, _, answerOf_enc h⟩)
    | encL _ _ => exact .inr (.inl ⟨_, _, _, _, _, answerOf_encL h⟩)
    | encWL _ _ _ _ => exact .inr (.inl ⟨_, _, _, _, _, answerOf_encWL h⟩)
    | dec _ => exact .inr (.inr ⟨_, _, _, _, answerOf_dec h⟩)
    | decW _ _ _ => exact .inr (.inr ⟨_, _, _, _, answerOf_decW h⟩)
  · exact .inl (answerOf_mismatch h)

theorem answerOf_sound {i : Instr} {cfg : Cfg} (hlegal : cfg.Legal) {source : Source} {r : Response}
    (h : answerOf i cfg source = .ok r) : r.Sound := by
  obtain ha | ⟨_, _, _, _, _, ha⟩ | ⟨_, _, _, _, ha⟩ := answerOf_cases i cfg source
  · rw [ha] at h
    cases h
  · exact encodeReply_sound hlegal (ha ▸ h)
  · exact decodeReply_sound (ha ▸ h)

/-- No meaning refuses a command as reserved: only the step does. -/
theorem answerOf_ne_reserved {i : Instr} {cfg : Cfg} {source : Source} {why : Reserved} :
    answerOf i cfg source ≠ .error (.reserved why) := by
  obtain ha | ⟨_, _, _, _, _, ha⟩ | ⟨_, _, _, _, ha⟩ := answerOf_cases i cfg source <;> rw [ha]
  · simp
  · exact reply_ne_reserved
  · exact reply_ne_reserved

theorem step_reserved_iff {s : State} {c : Command} {rest : List Input} {why : Reserved}
    (hin : s.inputs = .command c :: rest) : step s = .refused (.reserved why) ↔ decode c.words = .error why := by
  refine ⟨fun h => ?_, step_of_decode_error hin⟩
  cases hd : decode c.words with
  | error why' =>
    rw [step_of_decode_error hin hd] at h
    cases h
    rfl
  | ok i =>
    rw [step_command hin hd, exec_eq_transact, transact_refused_iff hin] at h
    exact absurd h answerOf_ne_reserved

theorem reservedDescriptor_iff {d : Descriptor} : ReservedDescriptor d ↔ ∃ why, decode d = .error why := by
  rw [← not_iff_not, ← exists_decode_ok_iff]
  cases decode d <;> simp

/-- The row of the opcode table a command belongs to, for all five commands. -/
theorem matches_cmd_iff {row : OpcodeRow} (hrow : row ∈ opcodeTable) (i : Instr) :
    row.matches (BitVec.ofNat 8 i.cmd) = true ↔ row.mnemonic = i.mnemonic := by
  have hfilter : Laws.OpcodeRow.Statement i := by
    cases i with
    | enc src => exact Laws.OpcodeRow.enc src
    | encL src mode => exact Laws.OpcodeRow.encL src mode
    | encWL src offset length mode => exact Laws.OpcodeRow.encWL src offset length mode
    | dec src => exact Laws.OpcodeRow.dec src
    | decW src offset length => exact Laws.OpcodeRow.decW src offset length
  have hmem := congrArg (row ∈ ·) hfilter
  simpa [hrow] using hmem

/-- Every command with an absent source answers InvalidArgument (30_encoding.md R84). -/
theorem answerOf_absent {i : Instr} (h : i.src = .absent) (cfg : Cfg) :
    answerOf i cfg .absent = .ok invalidArgumentResponse := by
  cases i <;> obtain rfl : _ = SrcOperand.absent := h <;> rfl

theorem exec_absent {i : Instr} (h : i.src = .absent) {s : State} {c : Command} {rest : List Input}
    (hin : s.inputs = .command c :: rest) (hsource : c.source = .absent) :
    exec i s = .next (afterResponse s c rest invalidArgumentResponse) := by
  rw [exec_eq_transact, ← complete_eq_afterResponse]
  exact transact_ok hin (hsource ▸ answerOf_absent h s.cfg)

theorem decode_of_decodeTableWord {nbits w : Nat} {i : Instr} (h : decodeTableWord nbits w = some i) :
    decode (tableDescriptor nbits w) = .ok i := by
  unfold decodeTableWord at h
  split at h <;> cases h
  assumption

/-! ### The statements of the encoding family -/

/-- Settles O1: the reserved bits of an encoded command are 0, and its form is read back field by field. -/
theorem decodeOfEncode : Obligations.DecodeOfEncode := fun _ h =>
  (decode_encode_eq_decodeForm h).trans (decodeForm_encode h)

/-- Settles O2: the command read keeps every field of the descriptor, and a defined descriptor is nothing but its
fields. -/
theorem encodeOfDecode : Obligations.EncodeOfDecode := fun _ _ h => ⟨wf_of_decode h, encode_of_decode h⟩

/-- Settles O11: every answer is sound under a legal configuration, and the one `Step(Cfg, cmd)` gives. -/
theorem stepKeepsTheInvariant : Obligations.StepKeepsTheInvariant := by
  intro s t ⟨legal, responses, answered⟩ h
  obtain ⟨-, rfl⟩ | ⟨rest, -, rfl⟩ | ⟨c, rest, i, r, -, hd, ha, rfl⟩ := step_next_iff.1 h
  · exact ⟨legal, responses, answered⟩
  · exact ⟨legal, responses, answered⟩
  · refine ⟨legal, ?_, ?_⟩
    · exact List.forall_mem_append.2 ⟨responses, List.forall_mem_singleton.2 (answerOf_sound legal ha)⟩
    · exact List.forall_mem_append.2 ⟨answered, List.forall_mem_singleton.2 (respond_eq_some.2 ⟨i, hd, ha⟩)⟩

/-- Settles O3: the step refuses as reserved what the decoder rejects, and that is every listed condition. -/
theorem reservedExactlyAsListed : Obligations.ReservedExactlyAsListed := by
  intro s c rest hin
  simp only [step_reserved_iff hin, reservedDescriptor_iff]

/-- Settles O4: the low 8 bits of `W0` are the `CMD` of the command read, and that `CMD` has one row. -/
theorem decodedCommandIsItsRow : Obligations.DecodedCommandIsItsRow := by
  intro d i h row hrow
  rw [← encode_of_decode h, setWidth_encode_w0]
  exact matches_cmd_iff hrow i

/-- Settles O5, by evaluating the decoder on the eleven descriptors. -/
theorem descriptorWordsDecode : Obligations.DescriptorWordsDecode := by
  unfold Obligations.DescriptorWordsDecode
  decide

/-- Settles O17: the table word stands at the head of the inputs, and the step runs the command there. -/
theorem fetchWordRunsItsCommand : Obligations.FetchWordRunsItsCommand := fun s nbits w _ h =>
  step_command (s.withFetchWord_inputs nbits w) (decode_of_decodeTableWord h)

/-- Settles O21: with a present source the two meanings are the same function of the operands, and with an absent one
every command is answered alike. -/
theorem shortFormsAreFullForms : Obligations.ShortFormsAreFullForms := by
  refine ⟨fun s n mode => ⟨rfl, rfl, rfl⟩, fun s c rest offset length mode hin hsource => ?_⟩
  have habsent : ∀ {i : Instr}, i.src = .absent → exec i s = .next (afterResponse s c rest invalidArgumentResponse) :=
    fun h => exec_absent h hin hsource
  exact ⟨habsent rfl, habsent rfl, habsent rfl, habsent rfl, habsent rfl⟩

end Sys2Proof.Machine

/-! ### The encode family (40_encode.md): what the encoder answers to a valid window -/

namespace Sys2Proof.Machine

/-- The text the encoder unit makes of a window: its body, wrapped on request (R91). -/
def windowText (cfg : Cfg) (bs : List Byte) (offset length : Nat) (mode : LineBreakMode) : List CodeUnit :=
  applyMode cfg (encodeBody cfg (window bs offset length)) mode

theorem windowText_none (cfg : Cfg) (bs : List Byte) (offset length : Nat) :
    windowText cfg bs offset length .none = encodeBody cfg (window bs offset length) := rfl

theorem windowText_insertEvery76 (cfg : Cfg) (bs : List Byte) (offset length : Nat) :
    windowText cfg bs offset length .insertEvery76 = lineWrap cfg (encodeBody cfg (window bs offset length)) := rfl

theorem length_windowText {cfg : Cfg} {bs : List Byte} {offset length : Nat} (h : offset + length ≤ bs.length)
    (mode : LineBreakMode) : (windowText cfg bs offset length mode).length = encodedLength cfg mode length := by
  rw [windowText, length_applyMode, length_window h]

theorem length_encodeBody_window {cfg : Cfg} {bs : List Byte} {offset length : Nat}
    (h : offset + length ≤ bs.length) :
    (encodeBody cfg (window bs offset length)).length = 4 * ((length + 2) / 3) :=
  length_windowText h .none

/-- The text of a valid window has the index form of R91. -/
theorem isEncoding_windowText {cfg : Cfg} {bs : List Byte} {offset length : Nat} (h : offset + length ≤ bs.length)
    (mode : LineBreakMode) : IsEncoding cfg bs offset length mode (windowText cfg bs offset length mode) := by
  cases mode with
  | none => exact isBody_encodeBody h
  | insertEvery76 => exact ⟨_, isBody_encodeBody h, isWrapped_lineWrap cfg _⟩

/-- The wrapped text is never shorter than the body. -/
theorem encodedLength_none_le (cfg : Cfg) (mode : LineBreakMode) (length : Nat) :
    encodedLength cfg .none length ≤ encodedLength cfg mode length := by
  cases mode with
  | none => exact le_rfl
  | insertEvery76 => exact Nat.le_add_right _ _

theorem encodedLength_zero (cfg : Cfg) (mode : LineBreakMode) : encodedLength cfg mode 0 = 0 := by
  cases mode with
  | none => rfl
  | insertEvery76 => simp [encodedLength, breakCount]

/-- The text of an empty window is empty in either mode (R92). -/
theorem windowText_empty {cfg : Cfg} {bs : List Byte} {offset : Nat} (h : offset ≤ bs.length)
    (mode : LineBreakMode) : windowText cfg bs offset 0 mode = [] :=
  List.length_eq_zero_iff.1 ((length_windowText h mode).trans (encodedLength_zero cfg mode))

/-- A command at the head of the inputs is answered with what its meaning answers, and nothing else changes. -/
theorem exec_next_iff {i : Instr} {s : State} {c : Command} {rest : List Input} {r : Response}
    (hin : s.inputs = .command c :: rest) :
    exec i s = .next (afterResponse s c rest r) ↔ answerOf i s.cfg c.source = .ok r := by
  rw [exec_eq_transact, ← complete_eq_afterResponse, transact_complete_iff hin]

theorem bytesDeclared_of_length {bs : List Byte} {source : Source} {n : Nat} (h : source = .bytes bs)
    (hn : bs.length = n) : bytesDeclared (.present n) source := by
  subst h
  exact hn

theorem textDeclared_of_length {cs : List CodeUnit} {source : Source} {n : Nat} (h : source = .text cs)
    (hn : cs.length = n) : textDeclared (.present n) source := by
  subst h
  exact hn

section
variable {s : State} {c : Command} {rest : List Input} {bs : List Byte} {offset length : Nat}
  {mode : LineBreakMode}

/-- `ENC.WL` on a valid window whose text is not too long answers that text (R106). -/
theorem exec_encWL_window (hin : s.inputs = .command c :: rest) (hsource : c.source = .bytes bs)
    (hw : offset + length ≤ bs.length) (hlen : encodedLength s.cfg mode length ≤ maxLen) :
    exec (.encWL (.present bs.length) offset length mode) s =
      .next (afterResponse s c rest (okText (windowText s.cfg bs offset length mode))) := by
  rw [exec_next_iff hin, answerOf_encWL (bytesDeclared_of_length hsource rfl), hsource, Source.bytesOf,
    encodeReply_ok_iff]
  have hvalid : argsValid (.present bs.length) offset length = true := argsValid_present.2 (by omega)
  exact .inr ⟨hvalid, (length_windowText hw mode).trans_le hlen, rfl⟩

/-- `ENC.L` answers the text of the whole sequence (R105). -/
theorem exec_encL_whole (hin : s.inputs = .command c :: rest) (hsource : c.source = .bytes bs)
    (hlen : encodedLength s.cfg mode bs.length ≤ maxLen) :
    exec (.encL (.present bs.length) mode) s =
      .next (afterResponse s c rest (okText (windowText s.cfg bs 0 bs.length mode))) := by
  obtain ⟨-, hfull, -⟩ := shortFormsAreFullForms.1 s bs.length mode
  rw [hfull]
  exact exec_encWL_window (offset := 0) hin hsource (Nat.zero_add _).le hlen

/-- `ENC` answers the body of the whole sequence (R104). -/
theorem exec_enc_whole (hin : s.inputs = .command c :: rest) (hsource : c.source = .bytes bs)
    (hlen : encodedLength s.cfg .none bs.length ≤ maxLen) :
    exec (.enc (.present bs.length)) s =
      .next (afterResponse s c rest (okText (windowText s.cfg bs 0 bs.length .none))) := by
  obtain ⟨hfull, -, -⟩ := shortFormsAreFullForms.1 s bs.length .none
  rw [hfull]
  exact exec_encL_whole hin hsource hlen

end

/-- Whatever an encode command answers, it answered through the encoder unit: InvalidArgument or a text (R90). -/
theorem exec_next_of_encodeReply {i : Instr} {s t : State} (h : exec i s = .next t)
    (hreply : ∀ cfg source, sourceDeclared i source →
      ∃ src bytes offset length mode, answerOf i cfg source = encodeReply cfg src bytes offset length mode) :
    ∃ c rest r, s.inputs = .command c :: rest ∧ t = afterResponse s c rest r ∧
      (r = invalidArgumentResponse ∨ ∃ out, r = okText out) := by
  rw [exec_eq_transact] at h
  obtain ⟨c, rest, r, hin, ha, rfl⟩ := transact_next_iff.1 h
  have hdeclared : sourceDeclared i c.source := by
    by_contra hnot
    rw [answerOf_mismatch hnot] at ha
    cases ha
  obtain ⟨_, _, _, _, _, hunit⟩ := hreply s.cfg c.source hdeclared
  rw [hunit] at ha
  refine ⟨c, rest, r, hin, complete_eq_afterResponse s c rest r, ?_⟩
  obtain ⟨-, hr⟩ | ⟨-, -, hr⟩ := encodeReply_ok_iff.1 ha
  · exact .inl hr
  · exact .inr ⟨_, hr⟩

/-! ### The encode family (40_encode.md): line breaks -/

/-- A wrapped body in which no break has a character is the body itself. -/
theorem IsWrapped.eq_body {cfg : Cfg} {body out : List CodeUnit} (h : IsWrapped cfg body out)
    (hshift : ∀ k < body.length, k / 76 * cfg.lineBreak.length = 0)
    (hcount : breakCount cfg body.length * cfg.lineBreak.length = 0) : out = body := by
  obtain ⟨hlen, hchar, -⟩ := h
  rw [hcount, Nat.add_zero] at hlen
  refine List.ext_getElem? fun k => ?_
  by_cases hk : k < body.length
  · have hk' := hchar k hk
    rwa [hshift k hk, Nat.add_zero] at hk'
  · rw [List.getElem?_eq_none (by omega), List.getElem?_eq_none (by omega)]

/-- With no break after the last line, a body of one line is left as it is (R99; decision D10). -/
theorem lineWrap_of_one_line {cfg : Cfg} {body : List CodeUnit} (hend : cfg.lbAtEnd = false)
    (hlen : body.length ≤ 76) : lineWrap cfg body = body := by
  refine (isWrapped_lineWrap cfg body).eq_body (fun k hk => ?_) ?_
  · rw [show k / 76 = 0 by omega, Nat.zero_mul]
  · have hcount : breakCount cfg body.length = 0 := by
      simp only [breakCount, hend, Bool.false_eq_true, if_false]
      omega
    rw [hcount, Nat.zero_mul]

/-- An empty LINE_BREAK leaves every body as it is. -/
theorem lineWrap_of_lineBreak_nil {cfg : Cfg} (h : cfg.lineBreak = []) (body : List CodeUnit) :
    lineWrap cfg body = body :=
  (isWrapped_lineWrap cfg body).eq_body (by simp [h]) (by simp [h])

/-- A body longer than one line has a break, whatever LB_AT_END is (R99). -/
theorem breakCount_pos {cfg : Cfg} {m : Nat} (h : 76 < m) : 0 < breakCount cfg m := by
  unfold breakCount
  split <;> omega

/-- A LINE_BREAK with a character lengthens the text from 58 bytes on (R105). -/
theorem encodedLength_none_lt {cfg : Cfg} {length : Nat} (hlen : 58 ≤ length) (hbreak : cfg.lineBreak ≠ []) :
    encodedLength cfg .none length < encodedLength cfg .insertEvery76 length := by
  have hcount : 0 < breakCount cfg (4 * ((length + 2) / 3)) := breakCount_pos (by omega)
  exact Nat.lt_add_of_pos_right (Nat.mul_pos hcount (List.length_pos_iff.2 hbreak))

/-- A predicate that no break character meets sees the body alone: the lines without their breaks are those of the
same block with an empty LINE_BREAK. -/
theorem filter_lineWrap {cfg : Cfg} {p : CodeUnit → Bool} (hp : ∀ u ∈ cfg.lineBreak, p u = false)
    (body : List CodeUnit) : (lineWrap cfg body).filter p = body.filter p := by
  have hbreak : cfg.lineBreak.filter p = [] := List.filter_eq_nil_iff.2 (by simpa using hp)
  have hline : ∀ lines j, (wrapLine cfg body lines j).filter p =
      (wrapLine { cfg with lineBreak := [] } body lines j).filter p := by
    intro lines j
    simp only [wrapLine, List.filter_append, ite_self, List.filter_nil, List.append_cancel_left_eq]
    split
    · exact hbreak
    · rfl
  calc (lineWrap cfg body).filter p
      = (lineWrap { cfg with lineBreak := [] } body).filter p := by
        simp only [lineWrap, List.filter_flatMap, hline]
    _ = body.filter p := by rw [lineWrap_of_lineBreak_nil rfl]

/-- No character of a body is a break character (R14). -/
theorem not_mem_lineBreak_of_mem_encodeBody {cfg : Cfg} (h : cfg.LineBreakLegal) {w : List Byte} {u : CodeUnit}
    (hu : u ∈ encodeBody cfg w) : u ∉ cfg.lineBreak := by
  intro hbreak
  obtain ⟨-, halnum, hsym62, hsym63, hpad⟩ := h u hbreak
  obtain ⟨i, rfl⟩ | rfl := mem_encodeBody hu
  · obtain hi | hi | hi := encRom_alnum_or_symbol cfg i
    · exact halnum hi
    · exact hsym62 hi
    · exact hsym63 hi
  · exact hpad rfl

/-- Removing the break characters from a wrapped body gives the body back (R101). -/
theorem filter_lineWrap_encodeBody {cfg : Cfg} (h : cfg.LineBreakLegal) (w : List Byte) :
    (lineWrap cfg (encodeBody cfg w)).filter (fun u => decide (u ∉ cfg.lineBreak)) = encodeBody cfg w := by
  rw [filter_lineWrap (by simp)]
  exact List.filter_eq_self.2 fun u hu => decide_eq_true (not_mem_lineBreak_of_mem_encodeBody h hu)

/-! ### The encode family (40_encode.md): pads -/

/-- A window is its digit part followed by its trailing pads. -/
theorem digitPart_append_pads {w : List CodeUnit} (h : 2 ≤ w.length) :
    digitPart w ++ List.replicate (trailingPads w) pad = w := by
  obtain ⟨front, a, b, rfl⟩ : ∃ front a b, w = front ++ [a, b] := by
    refine ⟨w.take (w.length - 2), w[w.length - 2], w[w.length - 1], ?_⟩
    conv_lhs => rw [← List.take_append_drop (w.length - 2) w]
    rw [List.drop_eq_getElem_cons (by omega), List.drop_eq_getElem_cons (by omega), List.drop_eq_nil_of_le (by omega)]
    congr 4
    omega
  by_cases hb : b = pad
  · by_cases ha : a = pad
    · simp [digitPart, trailingPads, ha, hb]
    · simp [digitPart, trailingPads, ha, hb, List.take_append]
  · simp [digitPart, trailingPads, hb]

/-- A body ends in `3G - LENGTH` pads and has no other (R98). -/
theorem exists_encodeBody_eq_append_pads {cfg : Cfg} (h : cfg.SymbolsLegal) (w : List Byte) :
    ∃ front, encodeBody cfg w = front ++ List.replicate ((3 - w.length % 3) % 3) pad ∧ pad ∉ front := by
  by_cases hw : w = []
  · subst hw
    exact ⟨[], rfl, List.not_mem_nil⟩
  · obtain ⟨hpads, hdigits⟩ := pads_encodeBody h hw
    refine ⟨digitPart (encodeBody cfg w), ?_, fun hmem => ?_⟩
    · rw [← hpads, digitPart_append_pads (two_le_length_encodeBody hw)]
    · obtain ⟨i, hi⟩ := hdigits pad hmem
      exact encRom_ne_pad h i hi.symm

theorem count_pad_encodeBody {cfg : Cfg} (h : cfg.SymbolsLegal) (w : List Byte) :
    (encodeBody cfg w).count pad = (3 - w.length % 3) % 3 := by
  obtain ⟨front, hbody, hfront⟩ := exists_encodeBody_eq_append_pads h w
  rw [hbody, List.count_append, List.count_eq_zero.2 hfront, List.count_replicate_self, Nat.zero_add]

/-- No pad stands before the last ones (R98). -/
theorem pad_index_encodeBody {cfg : Cfg} (h : cfg.SymbolsLegal) {w : List Byte} {k : Nat}
    (hk : (encodeBody cfg w)[k]? = some pad) : (encodeBody cfg w).length - (encodeBody cfg w).count pad ≤ k := by
  obtain ⟨front, hbody, hfront⟩ := exists_encodeBody_eq_append_pads h w
  have hlen : (encodeBody cfg w).length - (encodeBody cfg w).count pad = front.length := by
    rw [count_pad_encodeBody h, hbody, List.length_append, List.length_replicate, Nat.add_sub_cancel]
  rw [hlen]
  by_contra hlt
  rw [hbody, List.getElem?_append_left (by omega)] at hk
  exact hfront (List.mem_of_getElem? hk)

/-! ### The encode family (40_encode.md): windows -/

/-- Two bodies are equal only of equal windows: the decoder reads a window back from its body (R108, R129). -/
theorem encodeBody_injective {cfg : Cfg} (h : cfg.SymbolsLegal) {w w' : List Byte}
    (heq : encodeBody cfg w = encodeBody cfg w') : w = w' := by
  have hlen := congrArg List.length heq
  rw [length_encodeBody, length_encodeBody] at hlen
  by_cases hw : w = []
  · subst hw
    rw [List.length_nil] at hlen
    exact (List.length_eq_zero_iff.1 (by omega)).symm
  · have hw' : w' ≠ [] := by
      rintro rfl
      rw [List.length_nil] at hlen
      exact hw (List.length_eq_zero_iff.1 (by omega))
    have hdecode := decodeWindow_encodeBody h hw
    rw [heq, decodeWindow_encodeBody h hw'] at hdecode
    exact (Except.ok.inj hdecode).symm

theorem window_eq_take_drop {α : Type} (src : List α) (offset length : Nat) :
    window src offset length = (src.drop offset).take length := by
  simp [window, slice]

/-- Sequences that agree on a window have the same window there. -/
theorem window_congr {α : Type} {src src' : List α} {offset length : Int}
    (h : ∀ k, k < length.toNat → src'[offset.toNat + k]? = src[offset.toNat + k]?) :
    window src' offset length = window src offset length := by
  refine List.ext_getElem? fun k => ?_
  simp only [window, slice, Nat.add_sub_cancel_left, List.getElem?_take, List.getElem?_drop]
  split
  · exact h k ‹_›
  · rfl

/-- The encoder unit sees nothing of the source but the window (20_memory.md R56). -/
theorem encodeReply_congr {cfg : Cfg} {src : SrcOperand} {bs bs' : List Byte} {offset length : Int}
    {mode : LineBreakMode} (h : window bs' offset length = window bs offset length) :
    encodeReply cfg src bs' offset length mode = encodeReply cfg src bs offset length mode := by
  simp only [encodeReply, encodeCore, h]

/-- The decoder unit sees nothing of the source but the window (20_memory.md R56). -/
theorem decodeReply_congr {cfg : Cfg} {src : SrcOperand} {cs cs' : List CodeUnit} {offset length : Int}
    (h : window cs' offset length = window cs offset length) :
    decodeReply cfg src cs' offset length = decodeReply cfg src cs offset length := by
  simp only [decodeReply, decodeCore, h]

/-! ### The statements of the encode family -/

/-- Settles O18: the short forms answer the text of the window that is the whole sequence. -/
theorem encAndEncLAnswerTheText : Obligations.EncAndEncLAnswerTheText := by
  intro s c rest bs hin hsource
  have hw : 0 + bs.length ≤ bs.length := (Nat.zero_add _).le
  exact ⟨fun hlen => ⟨_, exec_enc_whole hin hsource hlen, isEncoding_windowText hw .none⟩,
    fun mode hlen => ⟨_, exec_encL_whole hin hsource hlen, isEncoding_windowText hw mode⟩⟩

/-- Settles O19: the text of a window without line breaks is its body in index form. -/
theorem encWLAnswersTheBody : Obligations.EncWLAnswersTheBody :=
  fun _ _ _ _ _ _ hin hsource hw hlen =>
    ⟨_, exec_encWL_window (mode := .none) hin hsource hw hlen, isEncoding_windowText hw .none⟩

/-- Settles O20: the text of a window with line breaks is its wrapped body in index form. -/
theorem encWLAnswersTheWrappedText : Obligations.EncWLAnswersTheWrappedText :=
  fun _ _ _ _ _ _ hin hsource hw hlen =>
    ⟨_, exec_encWL_window hin hsource hw hlen, isEncoding_windowText hw .insertEvery76⟩

/-- Settles O22: the body of 57 bytes fills one line, and a longer one has a break. -/
theorem firstBreakNeedsFiftyEightBytes : Obligations.FirstBreakNeedsFiftyEightBytes := by
  intro s c rest bs hin hsource hend
  have hw : 0 + bs.length ≤ bs.length := (Nat.zero_add _).le
  refine ⟨fun hshort => ?_, fun hlong hbreak hlen => ?_⟩
  · have hbody := length_encodeBody_window (cfg := s.cfg) hw
    have htext : windowText s.cfg bs 0 bs.length .insertEvery76 = windowText s.cfg bs 0 bs.length .none :=
      lineWrap_of_one_line hend (by omega)
    have hnone : encodedLength s.cfg .none bs.length ≤ maxLen := by
      simp only [encodedLength, maxLen]
      omega
    have hwrapped : encodedLength s.cfg .insertEvery76 bs.length ≤ maxLen := by
      rwa [← length_windowText hw, htext, length_windowText hw]
    rw [exec_encL_whole hin hsource hwrapped, exec_enc_whole hin hsource hnone, htext]
  · refine ⟨_, _, exec_encL_whole hin hsource hlen,
      exec_enc_whole hin hsource ((encodedLength_none_le _ _ _).trans hlen), ?_⟩
    rw [length_windowText hw, length_windowText hw]
    exact encodedLength_none_lt hlong hbreak

/-- Settles O25: the length of a body, which is the text itself or what is wrapped. -/
theorem encodedLengthLaw : Obligations.EncodedLengthLaw := by
  intro s c rest bs offset length hin hsource hw
  have hbody := length_encodeBody_window (cfg := s.cfg) hw
  refine ⟨fun hlen => ?_, fun hlen => ?_⟩
  · have hdst : (okText (windowText s.cfg bs offset length .none)).dstLen = 4 * ((length + 2) / 3) :=
      (okText_dstLen (hbody.trans_le hlen)).trans hbody
    exact ⟨_, exec_encWL_window (mode := .none) hin hsource hw hlen, okText_status _, hdst, by omega⟩
  · exact ⟨_, _, exec_encWL_window hin hsource hw hlen, isWrapped_lineWrap s.cfg _, hbody, by omega⟩

/-- Settles O26: a body is characters that are no pads, then `3G - LENGTH` pads. -/
theorem paddingLaw : Obligations.PaddingLaw := by
  intro s c rest bs offset length hin hsource hw hsymbols hlen
  have hcount := count_pad_encodeBody hsymbols (window bs offset length)
  rw [length_window hw] at hcount
  refine ⟨_, exec_encWL_window (mode := .none) hin hsource hw hlen, ?_⟩
  rw [windowText_none]
  exact ⟨by omega, by omega, by omega, fun _ => pad_index_encodeBody hsymbols⟩

/-- Settles O27: filtering a wrapped body removes its breaks and no character of the body. -/
theorem removingBreaksGivesTheBody : Obligations.RemovingBreaksGivesTheBody := by
  intro s c rest bs offset length hin hsource hw ⟨_, hbreak⟩ hlen
  exact ⟨_, _, exec_encWL_window hin hsource hw hlen,
    exec_encWL_window hin hsource hw ((encodedLength_none_le _ _ _).trans hlen),
    filter_lineWrap_encodeBody hbreak _⟩

/-- Settles O28: an element is an alphabet character, `PAD` or part of a break; an alternate is neither of the
first two. -/
theorem outputAlphabet : Obligations.OutputAlphabet := by
  intro s c rest bs offset length mode hin hsource hw hlegal hlen
  refine ⟨_, exec_encWL_window hin hsource hw hlen, fun u hu =>
    ⟨lt_of_mem_applyMode hlegal hu, mem_applyMode hu, ?_⟩⟩
  rintro rfl
  obtain ⟨hsymbols, -⟩ := hlegal
  have ⟨_, _, ⟨_, _, hpad62⟩, ⟨_, _, hpad63⟩, _⟩ := hsymbols
  obtain ⟨i, rfl⟩ | rfl := mem_encodeBody hu
  · exact ⟨encRom_ne_alt62 hsymbols i, encRom_ne_alt63 hsymbols i⟩
  · exact ⟨hpad62.symm, hpad63.symm⟩

/-- Settles O29: each of the three commands answers what the encoder unit answers. -/
theorem encoderRaisesOnlyInvalidArgument : Obligations.EncoderRaisesOnlyInvalidArgument := by
  rintro s t src offset length mode (h | h | h)
  · exact exec_next_of_encodeReply h fun _ _ hd => ⟨_, _, _, _, _, answerOf_enc hd⟩
  · exact exec_next_of_encodeReply h fun _ _ hd => ⟨_, _, _, _, _, answerOf_encL hd⟩
  · exact exec_next_of_encodeReply h fun _ _ hd => ⟨_, _, _, _, _, answerOf_encWL hd⟩

/-- Settles O30: the body determines its window. -/
theorem encodingIsInjective : Obligations.EncodingIsInjective := by
  intro s s' c c' rest rest' bs bs' o n o' n' hcfg hsymbols hin hin' hsource hsource' hw hw' hlen hlen' hne
  refine ⟨_, _, exec_encWL_window (mode := .none) hin hsource hw hlen,
    exec_encWL_window (mode := .none) hin' hsource' hw' hlen', fun heq => hne ?_⟩
  rw [windowText_none, windowText_none, hcfg] at heq
  rw [← window_eq_take_drop, ← window_eq_take_drop]
  exact encodeBody_injective hsymbols heq

/-- Settles O49: the answer is a function of SRC_LEN, the operands and the window. -/
theorem onlyTheWindowInfluencesTheResponse : Obligations.OnlyTheWindowInfluencesTheResponse := by
  intro s s' c c' rest rest' offset length hcfg hin hin'
  refine ⟨fun bs bs' mode hsource hsource' hlen hagree r => ?_, fun cs cs' hsource hsource' hlen hagree r => ?_⟩
  · rw [exec_next_iff hin, exec_next_iff hin', answerOf_encWL (bytesDeclared_of_length hsource rfl),
      answerOf_encWL (bytesDeclared_of_length hsource' hlen), hcfg, hsource, hsource']
    simp only [Source.bytesOf, encodeReply_congr (window_congr hagree)]
  · rw [exec_next_iff hin, exec_next_iff hin', answerOf_decW (textDeclared_of_length hsource rfl),
      answerOf_decW (textDeclared_of_length hsource' hlen), hcfg, hsource, hsource']
    simp only [Source.textOf, decodeReply_congr (window_congr hagree)]

/-- Settles O24: an empty window has the empty text in either mode, and `DecodeCore` returns early on it. -/
theorem emptyWindowGivesEmptyOutput : Obligations.EmptyWindowGivesEmptyOutput := by
  intro s c rest offset hin
  have hshort : ∀ mode, encodedLength s.cfg mode 0 ≤ maxLen := fun mode =>
    (encodedLength_zero s.cfg mode).trans_le (Nat.zero_le _)
  refine ⟨fun bs mode hsource hoffset => ?_, fun mode hsource => ?_, fun cs hsource hoffset => ?_⟩
  · have hexec := exec_encWL_window (length := 0) hin hsource hoffset (hshort mode)
    rwa [windowText_empty hoffset] at hexec
  · have hexec := exec_encL_whole hin hsource (hshort mode)
    rwa [List.length_nil, windowText_empty (Nat.zero_le _)] at hexec
  · have hvalid : argsValid (.present cs.length) offset 0 = true := argsValid_present.2 (by omega)
    rw [exec_next_iff hin, answerOf_decW (textDeclared_of_length hsource rfl)]
    exact decodeReply_ok (decodeCore_empty hvalid) (Nat.zero_le _)

end Sys2Proof.Machine

/-! ### The decode family (41_decode.md): which operands and windows the decoder accepts -/

namespace Sys2Proof.Machine

/-- What `DecodeCore` fails a window of quartets for: a misplaced `PAD` (R116), or under REJECT a non-digit (R118). -/
def WindowRejected (cfg : Cfg) (text : List CodeUnit) (offset length : Nat) : Prop :=
  PadMisplaced text offset length ∨ (cfg.unknownPolicy = .reject ∧ NonDigitPresent cfg text offset length)

/-- The bytes the decoder unit makes of an accepted window (R119 to R121). -/
def windowBytes (cfg : Cfg) (text : List CodeUnit) (offset length : Nat) : List Byte :=
  decodeQuartets cfg (trailingPads (window text offset length)) (window text offset length)

section
variable {cfg : Cfg} {text : List CodeUnit} {offset length : Nat}

theorem argsValid_window :
    argsValid (.present text.length) offset length = true ↔ offset + length ≤ text.length := by
  rw [argsValid_present]
  omega

theorem decodeWindow_window_ok_iff {out : List Byte} (hw : offset + length ≤ text.length) (h2 : 2 ≤ length) :
    decodeWindow cfg (window text offset length) = .ok out ↔
      ¬ WindowRejected cfg text offset length ∧ out = windowBytes cfg text offset length := by
  rw [decodeWindow_eq_ok, pad_mem_digitPart hw h2, any_not_isDigit hw h2, WindowRejected, not_or, and_assoc,
    windowBytes]

theorem decodeWindow_window_error_iff {e : ErrorKind} (hw : offset + length ≤ text.length) (h2 : 2 ≤ length) :
    decodeWindow cfg (window text offset length) = .error e ↔
      e = .formatError ∧ WindowRejected cfg text offset length := by
  rw [decodeWindow_eq_error, pad_mem_digitPart hw h2, any_not_isDigit hw h2, WindowRejected]

/-- When `DecodeCore` answers a window that is not empty with bytes, and with which (R111). -/
theorem decodeCore_ok_iff {out : List Byte} (h0 : 0 < length) :
    decodeCore cfg (.present text.length) text offset length = .ok out ↔
      offset + length ≤ text.length ∧ length % 4 = 0 ∧ ¬ WindowRejected cfg text offset length ∧
        out = windowBytes cfg text offset length := by
  by_cases hw : offset + length ≤ text.length
  · have hvalid := argsValid_window.2 hw
    by_cases h4 : length % 4 = 0
    · rw [decodeCore_window hvalid (by omega) (by omega), decodeWindow_window_ok_iff hw (by omega)]
      simp only [hw, h4, true_and]
    · rw [decodeCore_not_multiple hvalid (by omega)]
      simp [h4]
  · have hinvalid := Bool.eq_false_iff.2 (mt argsValid_window.1 hw)
    rw [decodeCore_invalid hinvalid]
    simp [hw]

/-- When `DecodeCore` fails a window that is not empty, and with which error (R111, R112, R116, R118). -/
theorem decodeCore_error_iff {e : ErrorKind} (h0 : 0 < length) :
    decodeCore cfg (.present text.length) text offset length = .error e ↔
      (¬ offset + length ≤ text.length ∧ e = .invalidArgument) ∨
      (offset + length ≤ text.length ∧ e = .formatError ∧
        (length % 4 ≠ 0 ∨ WindowRejected cfg text offset length)) := by
  by_cases hw : offset + length ≤ text.length
  · have hvalid := argsValid_window.2 hw
    by_cases h4 : length % 4 = 0
    · rw [decodeCore_window hvalid (by omega) (by omega), decodeWindow_window_error_iff hw (by omega)]
      simp [hw, h4]
    · rw [decodeCore_not_multiple hvalid (by omega)]
      simp [hw, h4, eq_comm]
  · have hinvalid := Bool.eq_false_iff.2 (mt argsValid_window.1 hw)
    rw [decodeCore_invalid hinvalid]
    simp [hw, eq_comm]

/-- The bytes of an accepted window fit in any output the source itself fits in. -/
theorem length_windowBytes_le (hw : offset + length ≤ text.length) (h4 : length % 4 = 0) (h0 : 0 < length) :
    (windowBytes cfg text offset length).length ≤ text.length := by
  obtain ⟨hlen, -⟩ := isDecoding_decodeQuartets (cfg := cfg) hw h4 h0
  rw [windowBytes, hlen]
  omega

end

theorem padRun_le (text : List CodeUnit) (offset length : Nat) : padRun text offset length ≤ 2 := by
  unfold padRun
  split
  · omega
  · split <;> omega

/-! ### The decode family (41_decode.md): what the two commands answer -/

section
variable {s : State} {c : Command} {rest : List Input} {text : List CodeUnit} {n : Nat} {r : Response}

/-- `DEC.W` answers what the decoder unit answers to its operands (R128). -/
theorem exec_decW_iff {offset length : Int} (hin : s.inputs = .command c :: rest) (hsource : c.source = .text text)
    (hn : text.length = n) :
    exec (.decW (.present n) offset length) s = .next (afterResponse s c rest r) ↔
      decodeReply s.cfg (.present n) text offset length = .ok r := by
  rw [exec_next_iff hin, answerOf_decW (textDeclared_of_length hsource hn), hsource, Source.textOf]

/-- `DEC` is `DEC.W` on the window that is the whole text (R127). -/
theorem exec_dec_eq_decW (n : Nat) (s : State) : exec (.dec (.present n)) s = exec (.decW (.present n) 0 n) s := by
  obtain ⟨-, -, hfull⟩ := shortFormsAreFullForms.1 s n .none
  exact hfull

theorem exec_dec_iff (hin : s.inputs = .command c :: rest) (hsource : c.source = .text text)
    (hn : text.length = n) :
    exec (.dec (.present n)) s = .next (afterResponse s c rest r) ↔
      decodeReply s.cfg (.present n) text 0 n = .ok r := by
  rw [exec_dec_eq_decW, exec_decW_iff hin hsource hn]

end

/-- A response with bytes comes from bytes `DecodeCore` answered, and they are not too long. -/
theorem decodeReply_okBytes_iff {cfg : Cfg} {src : SrcOperand} {text : List CodeUnit} {offset length : Int}
    {out : List Byte} :
    decodeReply cfg src text offset length = .ok (okBytes out) ↔
      decodeCore cfg src text offset length = .ok out ∧ out.length ≤ maxLen := by
  refine ⟨fun h => ?_, fun ⟨hcore, hlen⟩ => decodeReply_ok hcore hlen⟩
  obtain ⟨e, -, hr⟩ | ⟨out', hcore, hlen, hr⟩ := decodeReply_ok_iff.1 h
  · have hoff : Output.bytes out = .none := congrArg Response.output hr
    cases hoff
  · obtain rfl : out = out' := Output.bytes.inj (congrArg Response.output hr)
    exact ⟨hcore, hlen⟩

/-! ### The decode family (41_decode.md): the round trip (R129) -/

/-- `DecodeCore` on a whole body gives the bytes back, the empty one included. -/
theorem decodeCore_encodeBody {cfg : Cfg} (h : cfg.SymbolsLegal) (w : List Byte) :
    decodeCore cfg (.present (encodeBody cfg w).length) (encodeBody cfg w) 0 (encodeBody cfg w).length = .ok w := by
  by_cases hw : w = []
  · subst hw
    exact decodeCore_empty rfl
  · have hlen := length_encodeBody cfg w
    have hpos := two_le_length_encodeBody (cfg := cfg) hw
    rw [decodeCore_window (argsValid_present.2 (by omega)) (by omega) (by omega), window_whole,
      decodeWindow_encodeBody h hw]

/-- `DEC` on the text of a window without line breaks answers the window. -/
theorem exec_dec_windowText {cfg : Cfg} (h : cfg.SymbolsLegal) {bs : List Byte} {offset length : Nat}
    (hw : offset + length ≤ bs.length) (hlen : encodedLength cfg .none length ≤ maxLen)
    {s : State} {c : Command} {rest : List Input} (hcfg : s.cfg = cfg) (hin : s.inputs = .command c :: rest)
    (hsource : c.source = .text (windowText cfg bs offset length .none)) :
    exec (.dec (.present (windowText cfg bs offset length .none).length)) s =
      .next (afterResponse s c rest (okBytes ((bs.drop offset).take length))) := by
  subst hcfg
  rw [encodedLength] at hlen
  have hmax : (window bs offset length).length ≤ maxLen := by
    rw [length_window hw]
    omega
  rw [exec_dec_iff hin hsource rfl, ← window_eq_take_drop]
  exact decodeReply_ok (decodeCore_encodeBody h _) hmax

/-! ### The decode family (41_decode.md): digits -/

theorem not_isDigit_of_le {cfg : Cfg} {c : CodeUnit} (hc : 128 ≤ c.toNat) : isDigit cfg c = false := by
  refine Bool.eq_false_iff.2 fun hd => ?_
  obtain ⟨hlt, -⟩ := isDigit_iff.1 hd
  omega

theorem not_isDigit_pad {cfg : Cfg} (h : cfg.SymbolsLegal) : isDigit cfg pad = false := by
  have ⟨_, _, ⟨_, _, halt62⟩, ⟨_, _, halt63⟩, _⟩ := h
  refine Bool.eq_false_iff.2 fun hd => ?_
  obtain ⟨v, hv⟩ | hv | hv := (isDigit_iff_of_legal h).1 hd
  · exact encRom_ne_pad h v hv
  · exact halt62 hv.symm
  · exact halt63 hv.symm

/-- A digit is the alphabet character of its value, or the alternate of value 62 or 63 (R117, R123). -/
theorem digit_cases {cfg : Cfg} (h : cfg.SymbolsLegal) {c : CodeUnit} (hc : isDigit cfg c = true) :
    c = encRom cfg (decVal cfg c) ∨ (c = cfg.alt62 ∧ decVal cfg c = 62) ∨ (c = cfg.alt63 ∧ decVal cfg c = 63) := by
  obtain ⟨v, rfl⟩ | rfl | rfl := (isDigit_iff_of_legal h).1 hc
  · exact .inl (by rw [decVal_encRom h])
  · exact .inr (.inl ⟨rfl, decVal_alt62 h⟩)
  · exact .inr (.inr ⟨rfl, decVal_alt63 h⟩)

theorem decVal_sym62 {cfg : Cfg} (h : cfg.SymbolsLegal) : decVal cfg cfg.sym62 = 62 := by
  rw [← encRom_62, decVal_encRom h]

theorem decVal_sym63 {cfg : Cfg} (h : cfg.SymbolsLegal) : decVal cfg cfg.sym63 = 63 := by
  rw [← encRom_63, decVal_encRom h]

/-! ### The decode family (41_decode.md): the last quartet -/

theorem trailingPads_append {w : List CodeUnit} (h : 2 ≤ w.length) (front : List CodeUnit) :
    trailingPads (front ++ w) = trailingPads w := by
  induction front with
  | nil => rfl
  | cons c front ih =>
    rw [List.cons_append, trailingPads_cons (by rw [List.length_append]; omega), ih]

theorem digitPart_append {w : List CodeUnit} (h : 2 ≤ w.length) (front : List CodeUnit) :
    digitPart (front ++ w) = front ++ digitPart w := by
  induction front with
  | nil => rfl
  | cons c front ih =>
    rw [List.cons_append, digitPart_cons (by rw [List.length_append]; omega), ih, List.cons_append]

/-- Whole quartets in front of a window contribute their bytes in full. -/
theorem decodeQuartets_append {cfg : Cfg} {p n : Nat} {front w : List CodeUnit} (hfront : front.length = 4 * n)
    (hw : w ≠ []) : decodeQuartets cfg p (front ++ w) = decodeQuartets cfg 0 front ++ decodeQuartets cfg p w := by
  induction n generalizing front with
  | zero =>
    obtain rfl := List.length_eq_zero_iff.1 hfront
    rfl
  | succ n ih =>
    match front, hfront with
    | [c0, c1, c2, c3], _ => exact decodeQuartets_cons hw
    | c0 :: c1 :: c2 :: c3 :: c4 :: front, hfront =>
      have hrest : (c4 :: front).length = 4 * n := by simp only [List.length_cons] at hfront ⊢; omega
      rw [decodeQuartets_cons (rest := c4 :: front) (List.cons_ne_nil _ _), List.append_assoc, ← ih hrest]
      exact decodeQuartets_cons (List.cons_ne_nil _ _)

/-- Two last quartets are as good as each other to `DecodeCore` under ZERO: the same pads, both with or both without a
misplaced `PAD`, and the same bytes left of them. -/
structure LastQuartetsAgree (cfg : Cfg) (q q' : List CodeUnit) : Prop where
  length_left : q.length = 4
  length_right : q'.length = 4
  pads : trailingPads q' = trailingPads q
  misplaced : pad ∈ digitPart q' ↔ pad ∈ digitPart q
  bytes : decodeQuartets cfg (trailingPads q) q' = decodeQuartets cfg (trailingPads q) q

/-- Texts that differ in such a last quartet only have the same window result. -/
theorem LastQuartetsAgree.decodeWindow_eq {cfg : Cfg} {q q' front : List CodeUnit} (h : LastQuartetsAgree cfg q q')
    (hzero : cfg.unknownPolicy = .zero) (hfront : front.length % 4 = 0) :
    decodeWindow cfg (front ++ q') = decodeWindow cfg (front ++ q) := by
  obtain ⟨hq, hq', hpads, hmisplaced, hbytes⟩ := h
  obtain ⟨n, hn⟩ : ∃ n, front.length = 4 * n := ⟨front.length / 4, by omega⟩
  have hne : ∀ {w : List CodeUnit}, w.length = 4 → w ≠ [] := by rintro _ hlen rfl; cases hlen
  have hpad : pad ∈ digitPart (front ++ q') ↔ pad ∈ digitPart (front ++ q) := by
    rw [digitPart_append (by omega), digitPart_append (by omega), List.mem_append, List.mem_append, hmisplaced]
  have hout : decodeQuartets cfg (trailingPads (front ++ q')) (front ++ q') =
      decodeQuartets cfg (trailingPads (front ++ q)) (front ++ q) := by
    rw [trailingPads_append (by omega), trailingPads_append (by omega), hpads, decodeQuartets_append hn (hne hq'),
      decodeQuartets_append hn (hne hq), hbytes]
  simp only [decodeWindow, hpad, hout, hzero, reduceCtorEq, false_and, if_false]

/-- `DEC` answers two such texts alike, whatever their length is. -/
theorem LastQuartetsAgree.decodeReply_eq {cfg : Cfg} {q q' : List CodeUnit} (h : LastQuartetsAgree cfg q q')
    (hzero : cfg.unknownPolicy = .zero) (front : List CodeUnit) :
    decodeReply cfg (.present (front.length + 4)) (front ++ q') 0 (front.length + 4 : Nat) =
      decodeReply cfg (.present (front.length + 4)) (front ++ q) 0 (front.length + 4 : Nat) := by
  have hvalid : argsValid (.present (front.length + 4)) 0 (front.length + 4 : Nat) = true :=
    argsValid_present.2 (by omega)
  have hwhole : ∀ {w : List CodeUnit}, w.length = 4 → window (front ++ w) 0 (front.length + 4 : Nat) = front ++ w := by
    intro w hlen
    have := window_whole (front ++ w)
    rwa [List.length_append, hlen] at this
  rw [decodeReply, decodeReply]
  by_cases h4 : front.length % 4 = 0
  · rw [decodeCore_window hvalid (by omega) (by omega), decodeCore_window hvalid (by omega) (by omega),
      hwhole h.length_left, hwhole h.length_right, h.decodeWindow_eq hzero h4]
  · rw [decodeCore_not_multiple hvalid (by omega), decodeCore_not_multiple hvalid (by omega)]

/-- The low 4 bits of the second digit reach no byte but the second (R120). -/
theorem byte0_congr {d0 d1 d1' : Digit} (h : d1.toNat / 16 = d1'.toNat / 16) : byte0 d0 d1 = byte0 d0 d1' :=
  BitVec.eq_of_toNat_eq (by rw [toNat_byte0, toNat_byte0, h])

/-- The low 2 bits of the third digit reach no byte but the third (R120). -/
theorem byte1_congr {d1 d2 d2' : Digit} (h : d2.toNat / 4 = d2'.toNat / 4) : byte1 d1 d2 = byte1 d1 d2' :=
  BitVec.eq_of_toNat_eq (by rw [toNat_byte1, toNat_byte1, h])

/-- With two pads the low 4 bits of the last digit are discarded (R124). -/
theorem lastQuartetsAgree_two_pads {cfg : Cfg} {a d d' : CodeUnit} (hd : d ≠ pad) (hd' : d' ≠ pad)
    (h : (decVal cfg d).toNat / 16 = (decVal cfg d').toNat / 16) :
    LastQuartetsAgree cfg [a, d, pad, pad] [a, d', pad, pad] := by
  have hpads : ∀ u, trailingPads [a, u, pad, pad] = 2 := fun u => by simp [trailingPads]
  have hpart : ∀ u, digitPart [a, u, pad, pad] = [a, u] := fun u => by simp [digitPart, hpads]
  refine ⟨rfl, rfl, (hpads d').trans (hpads d).symm, ?_, ?_⟩
  · simp [hpart, hd.symm, hd'.symm]
  · rw [hpads]
    exact congrArg (fun b => [b]) (byte0_congr h).symm

/-- With one pad the low 2 bits of the last digit are discarded (R124). -/
theorem lastQuartetsAgree_one_pad {cfg : Cfg} {a b d d' : CodeUnit} (hd : d ≠ pad) (hd' : d' ≠ pad)
    (h : (decVal cfg d).toNat / 4 = (decVal cfg d').toNat / 4) :
    LastQuartetsAgree cfg [a, b, d, pad] [a, b, d', pad] := by
  have hpads : ∀ {u}, u ≠ pad → trailingPads [a, b, u, pad] = 1 := fun hu => by simp [trailingPads, hu]
  have hpart : ∀ {u}, u ≠ pad → digitPart [a, b, u, pad] = [a, b, u] := fun hu => by simp [digitPart, hpads hu]
  refine ⟨rfl, rfl, (hpads hd').trans (hpads hd).symm, ?_, ?_⟩
  · simp [hpart hd, hpart hd', hd.symm, hd'.symm]
  · rw [hpads hd]
    exact congrArg (fun b' => [byte0 (decVal cfg a) (decVal cfg b), b']) (byte1_congr h).symm

/-! ### The decode family (41_decode.md): the REJECT switch (R118) -/

/-- The block with UNKNOWN_POLICY = REJECT. -/
abbrev rejectCfg (cfg : Cfg) : Cfg := { cfg with unknownPolicy := .reject }

/-- The switch changes no table, so no byte of a quartet. -/
theorem quartetBytes_rejectCfg (cfg : Cfg) (c0 c1 c2 c3 : CodeUnit) :
    quartetBytes (rejectCfg cfg) c0 c1 c2 c3 = quartetBytes cfg c0 c1 c2 c3 := rfl

theorem decodeQuartets_rejectCfg (cfg : Cfg) (p : Nat) (w : List CodeUnit) :
    decodeQuartets (rejectCfg cfg) p w = decodeQuartets cfg p w := by
  induction w using decodeQuartets.induct with
  | case1 c0 c1 c2 c3 => simp only [decodeQuartets, quartetBytes_rejectCfg]
  | case2 c0 c1 c2 c3 rest hrest ih =>
    rw [decodeQuartets_cons hrest, decodeQuartets_cons hrest, quartetBytes_rejectCfg, ih]
  | case3 w hlast hquartet => rw [decodeQuartets, decodeQuartets] <;> assumption

theorem windowBytes_rejectCfg (cfg : Cfg) (text : List CodeUnit) (offset length : Nat) :
    windowBytes (rejectCfg cfg) text offset length = windowBytes cfg text offset length :=
  decodeQuartets_rejectCfg cfg _ _

theorem windowRejected_zero {cfg : Cfg} (hzero : cfg.unknownPolicy = .zero) (text : List CodeUnit)
    (offset length : Nat) : WindowRejected cfg text offset length ↔ PadMisplaced text offset length := by
  simp [WindowRejected, hzero]

/-- REJECT adds the non-digit as a cause (R118). -/
theorem windowRejected_rejectCfg (cfg : Cfg) (text : List CodeUnit) (offset length : Nat) :
    WindowRejected (rejectCfg cfg) text offset length ↔
      PadMisplaced text offset length ∨ NonDigitPresent cfg text offset length := by
  have hdigit : NonDigitPresent (rejectCfg cfg) text offset length ↔ NonDigitPresent cfg text offset length := Iff.rfl
  simp [WindowRejected, hdigit]

/-! ### The statements of the decode family -/

/-- Settles O50: the text is the body of the window, and the decoder undoes a body quartet by quartet. -/
theorem decodeOfEncodeIsTheWindow : Obligations.DecodeOfEncodeIsTheWindow := by
  intro s c rest bs hin hsource hsymbols
  refine ⟨fun hlen => ⟨_, exec_enc_whole hin hsource hlen, fun s' c' rest' hcfg hin' hsource' => ?_⟩,
    fun offset length hw hlen => ⟨_, exec_encWL_window (mode := .none) hin hsource hw hlen,
      fun s' c' rest' hcfg hin' hsource' => exec_dec_windowText hsymbols hw hlen hcfg hin' hsource'⟩⟩
  have hwhole := exec_dec_windowText hsymbols (Nat.zero_add _).le hlen hcfg hin' hsource'
  rwa [List.drop_zero, List.take_length] at hwhole

/-- Settles O34: the operands are looked at first, then the length, then nothing else. -/
theorem lengthNotMultipleOfFourFails : Obligations.LengthNotMultipleOfFourFails := by
  intro s c rest text hin hsource
  have hwindow : ∀ offset length : Int, length % 4 ≠ 0 →
      (0 ≤ offset ∧ 0 ≤ length ∧ offset + length ≤ text.length →
        exec (.decW (.present text.length) offset length) s = .next (afterResponse s c rest formatErrorResponse)) ∧
      (¬ (0 ≤ offset ∧ 0 ≤ length ∧ offset + length ≤ text.length) →
        exec (.decW (.present text.length) offset length) s =
          .next (afterResponse s c rest invalidArgumentResponse)) := by
    intro offset length h4
    simp only [exec_decW_iff hin hsource rfl]
    refine ⟨fun hvalid => ?_, fun hinvalid => ?_⟩
    · exact decodeReply_error (decodeCore_not_multiple (argsValid_present.2 hvalid) h4)
    · exact decodeReply_error (decodeCore_invalid (Bool.eq_false_iff.2 (mt argsValid_present.1 hinvalid)))
  refine ⟨fun h4 => ?_, hwindow⟩
  obtain ⟨hvalid, -⟩ := hwindow 0 text.length (by omega)
  rw [exec_dec_eq_decW]
  exact hvalid (by omega)

/-- Settles O39, from the entries of the table and what a digit is. -/
theorem decValOfEveryUnit : Obligations.DecValOfEveryUnit := by
  intro cfg h
  refine ⟨decVal_encRom h, decVal_alt62 h, decVal_alt63 h, fun _ => decVal_of_not_isDigit,
    fun _ => not_isDigit_of_le, not_isDigit_pad h, fun c => ?_⟩
  simp only [isDigit_iff_of_legal h, eq_comm]

/-- Settles O40, by which of the three kinds of digit each of the two is. -/
theorem onlySymbolPairsShareAValue : Obligations.OnlySymbolPairsShareAValue := by
  intro cfg h
  refine ⟨(decVal_sym62 h).trans (decVal_alt62 h).symm, (decVal_sym63 h).trans (decVal_alt63 h).symm,
    fun c c' hc hc' heq => ?_⟩
  have hdistinct : (62 : Digit) ≠ 63 := by decide
  obtain hx | ⟨hx, hv⟩ | ⟨hx, hv⟩ := digit_cases h hc <;>
    obtain hx' | ⟨hx', hv'⟩ | ⟨hx', hv'⟩ := digit_cases h hc'
  · exact .inl (by rw [hx, heq, ← hx'])
  · exact .inr (.inl ⟨by rw [hx, heq, hv', encRom_62], hx'⟩)
  · exact .inr (.inr (.inr (.inl ⟨by rw [hx, heq, hv', encRom_63], hx'⟩)))
  · exact .inr (.inr (.inl ⟨hx, by rw [hx', ← heq, hv, encRom_62]⟩))
  · exact .inl (hx.trans hx'.symm)
  · exact absurd (hv.symm.trans (heq.trans hv')) hdistinct
  · exact .inr (.inr (.inr (.inr ⟨hx, by rw [hx', ← heq, hv, encRom_63]⟩)))
  · exact absurd (hv.symm.trans (heq.trans hv')) hdistinct.symm
  · exact .inl (hx.trans hx'.symm)

/-- Settles O44: an accepted window is answered with its unpacked bytes, which have the index form. -/
theorem decWAnswersTheBytes : Obligations.DecWAnswersTheBytes := by
  intro s c rest text offset length hin hsource hmax hw h4 h0 hpad hpolicy
  have haccepted : ¬ WindowRejected s.cfg text offset length := by
    rintro (hmisplaced | ⟨hreject, hdigit⟩)
    · exact hpad hmisplaced
    · obtain hzero | hdigits := hpolicy
      · rw [hzero] at hreject
        cases hreject
      · exact hdigits hdigit
  refine ⟨windowBytes s.cfg text offset length, (exec_decW_iff hin hsource rfl).2 ?_,
    isDecoding_decodeQuartets hw h4 h0⟩
  exact decodeReply_ok ((decodeCore_ok_iff h0).2 ⟨hw, h4, haccepted, rfl⟩)
    ((length_windowBytes_le hw h4 h0).trans hmax)

/-- Settles O43: `DEC` is `DEC.W` on the whole text. -/
theorem decAnswersTheBytes : Obligations.DecAnswersTheBytes := by
  intro s c rest text hin hsource hmax h4 h0 hpad hpolicy
  rw [exec_dec_eq_decW]
  exact decWAnswersTheBytes s c rest text 0 text.length hin hsource hmax (Nat.zero_add _).le h4 h0 hpad hpolicy

/-- Settles O45: a success is the unpacked bytes of at least one quartet, of which at most two are cut off. -/
theorem decodedLengthLaw : Obligations.DecodedLengthLaw := by
  intro s c rest text offset length out hin hsource h0 hexec
  obtain ⟨hcore, hmax⟩ := decodeReply_okBytes_iff.1 ((exec_decW_iff hin hsource rfl).1 hexec)
  obtain ⟨hw, h4, -, rfl⟩ := (decodeCore_ok_iff h0).1 hcore
  obtain ⟨hlen, -⟩ := isDecoding_decodeQuartets (cfg := s.cfg) hw h4 h0
  have hpads := padRun_le text offset length
  rw [okBytes_dstLen hmax, windowBytes, hlen]
  exact ⟨rfl, hpads, by omega, by omega⟩

/-- Settles O46: last digits that agree on the bits that are kept are as good as each other in the last quartet. -/
theorem discardedBitsAreNotChecked : Obligations.DiscardedBitsAreNotChecked := by
  intro s s' c c' rest rest' front a b d d' hcfg hzero hd hd' hin hin'
  have hsame : ∀ {q q'}, c.source = .text (front ++ q) → c'.source = .text (front ++ q') →
      LastQuartetsAgree s.cfg q q' →
      ∀ r, exec (.dec (.present (front.length + 4))) s = .next (afterResponse s c rest r) ↔
        exec (.dec (.present (front.length + 4))) s' = .next (afterResponse s' c' rest' r) := by
    intro q q' hsource hsource' hagree r
    rw [exec_dec_iff hin hsource (by rw [List.length_append, hagree.length_left]),
      exec_dec_iff hin' hsource' (by rw [List.length_append, hagree.length_right]), hcfg,
      hagree.decodeReply_eq hzero front]
  exact ⟨fun hsource hsource' hkept => hsame hsource hsource' (lastQuartetsAgree_two_pads hd hd' hkept),
    fun hsource hsource' hkept => hsame hsource hsource' (lastQuartetsAgree_one_pad hd hd' hkept)⟩

/-- Settles O48, by what the ZERO decoder answers: an error stays, and bytes stay unless a non-digit is present. -/
theorem rejectPolicyAddsOneCause : Obligations.RejectPolicyAddsOneCause := by
  intro s s' c rest text offset length r hzero hcfg hin hin' hsource h0 hexec
  have hreply := (exec_decW_iff hin hsource rfl).1 hexec
  simp only [exec_decW_iff hin' hsource rfl, hcfg]
  obtain ⟨e, herror, rfl⟩ | ⟨out, hok, hmax, rfl⟩ := decodeReply_ok_iff.1 hreply
  · have hstatus : (errorResponse e).status ≠ 0 := by rw [errorResponse_status]; cases e <;> decide
    refine ⟨fun _ => decodeReply_error ?_, fun h => absurd h hstatus, fun h => absurd h hstatus⟩
    rw [decodeCore_error_iff h0, windowRejected_zero hzero] at herror
    rw [decodeCore_error_iff h0, windowRejected_rejectCfg]
    exact herror.imp_right fun ⟨hw, he, hcause⟩ => ⟨hw, he, hcause.imp_right .inl⟩
  · rw [decodeCore_ok_iff h0, windowRejected_zero hzero] at hok
    obtain ⟨hw, h4, hpad, hout⟩ := hok
    refine ⟨fun h => absurd (okBytes_status out) h, fun _ hdigits => decodeReply_ok ?_ hmax,
      fun _ hdigit => decodeReply_error (e := .formatError) ?_⟩
    · rw [decodeCore_ok_iff h0, windowRejected_rejectCfg, windowBytes_rejectCfg]
      exact ⟨hw, h4, not_or.2 ⟨hpad, hdigits⟩, hout⟩
    · rw [decodeCore_error_iff h0, windowRejected_rejectCfg]
      exact .inr ⟨hw, rfl, .inr (.inr hdigit)⟩

/-- Settles O23: both are the empty window of an empty source. -/
theorem boundaryLaw : Obligations.BoundaryLaw := by
  intro s c rest hin
  obtain ⟨-, hencL, hdecW⟩ := emptyWindowGivesEmptyOutput s c rest 0 hin
  refine ⟨fun hsource => ?_, fun hsource => ?_⟩
  · obtain ⟨hfull, -, -⟩ := shortFormsAreFullForms.1 s 0 .none
    rw [hfull]
    exact hencL .none hsource
  · rw [exec_dec_eq_decW]
    exact hdecW [] hsource (Nat.zero_le _)

end Sys2Proof.Machine

/-! ### The exceptions family (60_exceptions.md): which cause each unit answers -/

namespace Sys2Proof.Machine

theorem errorResponse_injective {e e' : ErrorKind} (h : errorResponse e = errorResponse e') : e = e' := by
  revert h
  cases e <;> cases e' <;> decide

theorem okText_ne_errorResponse (out : List CodeUnit) (e : ErrorKind) : okText out ≠ errorResponse e := by
  intro h
  have houtput : Output.text out = .none := congrArg Response.output h
  cases houtput

theorem okBytes_ne_errorResponse (out : List Byte) (e : ErrorKind) : okBytes out ≠ errorResponse e := by
  intro h
  have houtput : Output.bytes out = .none := congrArg Response.output h
  cases houtput

/-- The whole sequence of a short form is a valid window exactly when there is a sequence (R141). -/
theorem windowInvalid_short_iff {src : SrcOperand} : WindowInvalid src 0 (shortLength src) ↔ src = .absent := by
  cases src with
  | absent => simp [WindowInvalid]
  | present n => simp [WindowInvalid, shortLength]

theorem argsValid_true_iff {src : SrcOperand} {offset length : Int} :
    argsValid src offset length = true ↔ ¬ WindowInvalid src offset length := by
  rw [← argsValid_false_iff, Bool.not_eq_false]

/-- A declared text whose operands are valid is present, with the length the descriptor names. -/
theorem exists_text_of_textDeclared {src : SrcOperand} {source : Source} {offset length : Int}
    (hvalid : ¬ WindowInvalid src offset length) (hd : textDeclared src source) :
    ∃ text, source = .text text ∧ src = .present text.length := by
  cases src with
  | absent => exact absurd trivial hvalid
  | present n =>
    cases source with
    | text cs => exact ⟨cs, rfl, congrArg _ hd.symm⟩
    | absent => exact hd.elim
    | bytes bs => exact hd.elim

/-- A command that is answered has the source it declares (70_reset_and_hazards.md R164). -/
theorem sourceDeclared_of_answerOf_ok {i : Instr} {cfg : Cfg} {source : Source} {r : Response}
    (h : answerOf i cfg source = .ok r) : sourceDeclared i source := by
  by_contra hnot
  rw [answerOf_mismatch hnot] at h
  cases h

theorem afterResponse_response_inj {s : State} {c c' : Command} {rest rest' : List Input} {r r' : Response}
    (h : afterResponse s c rest r = afterResponse s c' rest' r') : r = r' := by
  have hcompleted : s.completed ++ [⟨c, r⟩] = s.completed ++ [⟨c', r'⟩] := congrArg State.completed h
  exact congrArg Transaction.response (List.cons.inj (List.append_cancel_left hcompleted)).1

/-- A command at the head of the inputs is refused for what its meaning refuses. -/
theorem exec_refused_iff {i : Instr} {s : State} {c : Command} {rest : List Input} {why : Refusal}
    (hin : s.inputs = .command c :: rest) : exec i s = .refused why ↔ answerOf i s.cfg c.source = .error why := by
  rw [exec_eq_transact, transact_refused_iff hin]

/-! ### The exceptions family (60_exceptions.md): the encoder unit -/

section
variable {cfg : Cfg} {src : SrcOperand} {bytes : List Byte} {offset length : Int} {mode : LineBreakMode}

/-- The encoder unit raises InvalidArgument exactly for the causes (a) to (d) (R141). -/
theorem encodeReply_invalidArgument_iff :
    encodeReply cfg src bytes offset length mode = .ok invalidArgumentResponse ↔ WindowInvalid src offset length := by
  rw [encodeReply_ok_iff, argsValid_false_iff]
  refine ⟨?_, fun h => .inl ⟨h, rfl⟩⟩
  rintro (⟨h, -⟩ | ⟨-, -, h⟩)
  · exact h
  · exact absurd h.symm (okText_ne_errorResponse _ .invalidArgument)

/-- The encoder unit refuses a valid window whose text is longer than MAX_LEN, and nothing else (R154). -/
theorem encodeReply_tooLong_iff :
    encodeReply cfg src bytes offset length mode = .error .outputTooLong ↔
      argsValid src offset length = true ∧
        maxLen < (applyMode cfg (encodeBody cfg (window bytes offset length)) mode).length := by
  rw [encodeReply, reply_error_iff]
  cases h : argsValid src offset length with
  | false => simp [encodeCore_invalid h, Except.map]
  | true => simp [encodeCore_valid h, Except.map, Output.length]

end

/-- `ENC.WL` on a valid window is refused exactly when its text is longer than MAX_LEN (R154). -/
theorem exec_encWL_tooLong_iff {s : State} {c : Command} {rest : List Input} {bs : List Byte} {offset length : Nat}
    {mode : LineBreakMode} (hin : s.inputs = .command c :: rest) (hsource : c.source = .bytes bs)
    (hw : offset + length ≤ bs.length) :
    exec (.encWL (.present bs.length) offset length mode) s = .refused .outputTooLong ↔
      maxLen < encodedLength s.cfg mode length := by
  have hvalid : argsValid (.present bs.length) offset length = true := argsValid_present.2 (by omega)
  rw [exec_refused_iff hin, answerOf_encWL (bytesDeclared_of_length hsource rfl), hsource, Source.bytesOf,
    encodeReply_tooLong_iff, length_applyMode, length_window hw]
  exact and_iff_right hvalid

/-- No encode command answers FormatError (R143). -/
theorem next_encoder_ne_formatError {s t : State} (src : SrcOperand) (offset length : Int) (mode : LineBreakMode)
    (h : exec (.enc src) s = .next t ∨ exec (.encL src mode) s = .next t ∨
      exec (.encWL src offset length mode) s = .next t) (c : Command) (rest : List Input) :
    t ≠ afterResponse s c rest formatErrorResponse := by
  obtain ⟨_, _, r, -, rfl, hanswer⟩ := encoderRaisesOnlyInvalidArgument s t src offset length mode h
  intro ht
  obtain rfl := afterResponse_response_inj ht
  obtain hinvalid | ⟨out, hout⟩ := hanswer
  · have hkind := errorResponse_injective (e := .formatError) (e' := .invalidArgument) hinvalid
    cases hkind
  · exact okText_ne_errorResponse out .formatError hout.symm

/-! ### The exceptions family (60_exceptions.md): the decoder unit -/

section
variable {cfg : Cfg} {src : SrcOperand} {source : Source} {offset length : Int}

/-- The decoder unit answers an error exactly when `DecodeCore` raises it. -/
theorem decodeReply_errorResponse_iff {text : List CodeUnit} {e : ErrorKind} :
    decodeReply cfg src text offset length = .ok (errorResponse e) ↔
      decodeCore cfg src text offset length = .error e := by
  refine ⟨fun h => ?_, decodeReply_error⟩
  obtain ⟨e', hcore, hr⟩ | ⟨out, -, -, hr⟩ := decodeReply_ok_iff.1 h
  · rw [hcore, errorResponse_injective hr]
  · exact absurd hr.symm (okBytes_ne_errorResponse out e)

/-- Operands that are not valid, and no others, raise InvalidArgument (R141, R146). -/
theorem decodeCore_invalidArgument_iff {text : List CodeUnit} :
    decodeCore cfg src text offset length = .error .invalidArgument ↔ WindowInvalid src offset length := by
  rw [← argsValid_false_iff]
  refine ⟨fun h => ?_, decodeCore_invalid⟩
  by_contra hvalid
  rw [Bool.not_eq_false] at hvalid
  by_cases h4 : length % 4 = 0
  · by_cases h0 : length = 0
    · subst h0
      rw [decodeCore_empty hvalid] at h
      cases h
    · rw [decodeCore_window hvalid h4 h0] at h
      obtain ⟨he, -⟩ := decodeWindow_eq_error.1 h
      cases he
  · rw [decodeCore_not_multiple hvalid h4] at h
    cases h

/-- On valid operands a bad length or a rejected window, and nothing else, raises FormatError (R142, R143, R146). -/
theorem decodeCore_formatError_iff (hd : textDeclared src source) :
    decodeCore cfg src source.textOf offset length = .error .formatError ↔
      ¬ WindowInvalid src offset length ∧
        (length % 4 ≠ 0 ∨ (0 < length ∧ WindowRejected cfg source.textOf offset.toNat length.toNat)) := by
  by_cases hinvalid : WindowInvalid src offset length
  · rw [decodeCore_invalidArgument_iff.2 hinvalid]
    simp [hinvalid]
  obtain ⟨text, rfl, rfl⟩ := exists_text_of_textDeclared hinvalid hd
  have hvalid := argsValid_true_iff.2 hinvalid
  obtain ⟨hoffset, hlength, hfit⟩ := argsValid_present.1 hvalid
  obtain ⟨off, rfl⟩ := Int.eq_ofNat_of_zero_le hoffset
  obtain ⟨len, rfl⟩ := Int.eq_ofNat_of_zero_le hlength
  obtain rfl | hpos := Nat.eq_zero_or_pos len
  · rw [Int.natCast_zero, decodeCore_empty hvalid]
    simp
  · have hw : off + len ≤ text.length := by omega
    have hquartets : (len : Int) % 4 = 0 ↔ len % 4 = 0 := by omega
    rw [Source.textOf, decodeCore_error_iff hpos, Int.toNat_natCast, Int.toNat_natCast]
    simp [hinvalid, hw, hpos, hquartets]

theorem decodeReply_invalidArgument_iff {text : List CodeUnit} :
    decodeReply cfg src text offset length = .ok invalidArgumentResponse ↔ WindowInvalid src offset length :=
  decodeReply_errorResponse_iff.trans decodeCore_invalidArgument_iff

theorem decodeReply_formatError_iff (hd : textDeclared src source) :
    decodeReply cfg src source.textOf offset length = .ok formatErrorResponse ↔
      ¬ WindowInvalid src offset length ∧
        (length % 4 ≠ 0 ∨ (0 < length ∧ WindowRejected cfg source.textOf offset.toNat length.toNat)) :=
  decodeReply_errorResponse_iff.trans (decodeCore_formatError_iff hd)

/-- The decoder unit answers an error or the bytes of `DecodeCore`: it refuses nothing, because its output is no longer
than its source (R154). -/
theorem decodeReply_cases (hd : textDeclared src source) (hwf : src.wf = true) :
    (∃ e, decodeReply cfg src source.textOf offset length = .ok (errorResponse e)) ∨
      (∃ out, decodeReply cfg src source.textOf offset length = .ok (okBytes out)) := by
  cases hcore : decodeCore cfg src source.textOf offset length with
  | error e => exact .inl ⟨e, decodeReply_error hcore⟩
  | ok out =>
    have hvalid : ¬ WindowInvalid src offset length := by
      rw [← decodeCore_invalidArgument_iff (cfg := cfg) (text := source.textOf), hcore]
      simp
    obtain ⟨text, rfl, rfl⟩ := exists_text_of_textDeclared hvalid hd
    exact .inr ⟨out, decodeReply_ok hcore ((length_decodeCore rfl hcore).trans (SrcOperand.wf_present.1 hwf))⟩

end

/-- `DEC` is `DEC.W` on the whole sequence, an absent one included (R127). -/
theorem exec_dec_eq_decW_shortLength (src : SrcOperand) (s : State) :
    exec (.dec src) s = exec (.decW src 0 (shortLength src)) s := by
  cases src with
  | absent => rfl
  | present n => exact exec_dec_eq_decW n s

/-- A decode command with a source that fits is never refused for the length of its output (R154). -/
theorem exec_decW_ne_tooLong {src : SrcOperand} {offset length : Int} {s : State} {c : Command} {rest : List Input}
    (hin : s.inputs = .command c :: rest) (hwf : src.wf = true) :
    exec (.decW src offset length) s ≠ .refused .outputTooLong := by
  rw [ne_eq, exec_refused_iff hin]
  by_cases hd : textDeclared src c.source
  · rw [answerOf_decW hd]
    obtain ⟨e, hr⟩ | ⟨out, hr⟩ := decodeReply_cases (cfg := s.cfg) (offset := offset) (length := length) hd hwf
    · simp [hr]
    · simp [hr]
  · simp [answerOf_mismatch (i := .decW src offset length) hd]

/-! ### The statements of the exceptions family -/

/-- Settles O31: the encoder refuses by the length of its text, `4 * ceil(LENGTH / 3)` without line breaks, and the
decoder's output is no longer than its source. -/
theorem tooLongOutputIsRefused : Obligations.TooLongOutputIsRefused := by
  intro s c rest hin
  refine ⟨fun bs offset length mode hsource hw => exec_encWL_tooLong_iff hin hsource hw,
    fun bs offset length hsource hw => ?_, fun src offset length hwf => ⟨?_, ?_⟩⟩
  · rw [exec_encWL_tooLong_iff hin hsource hw, encodedLength, maxLen]
    omega
  · rw [exec_dec_eq_decW_shortLength]
    exact exec_decW_ne_tooLong hin hwf
  · exact exec_decW_ne_tooLong hin hwf

/-- Settles O32: both units look at the operands first, and the whole sequence of a short form is a valid window. -/
theorem invalidArgumentExactly : Obligations.InvalidArgumentExactly := by
  intro s c rest hin
  simp only [exec_next_iff hin]
  refine ⟨fun src hd => ?_, fun src mode hd => ?_, fun src offset length mode hd => ?_, fun src hd => ?_,
    fun src offset length hd => ?_⟩
  · rw [answerOf_enc hd, encodeReply_invalidArgument_iff, windowInvalid_short_iff]
  · rw [answerOf_encL hd, encodeReply_invalidArgument_iff, windowInvalid_short_iff]
  · rw [answerOf_encWL hd, encodeReply_invalidArgument_iff]
  · rw [answerOf_dec hd, decodeReply_invalidArgument_iff, windowInvalid_short_iff]
  · rw [answerOf_decW hd, decodeReply_invalidArgument_iff]

/-- Settles O33: under ZERO a misplaced `PAD` is the only cause that rejects a window of quartets, and the encoder
answers InvalidArgument or a text. -/
theorem formatErrorExactly : Obligations.FormatErrorExactly := by
  intro s c rest hin hzero
  have hwindow : ∀ src offset length, textDeclared src c.source →
      (exec (.decW src offset length) s = .next (afterResponse s c rest formatErrorResponse) ↔
        ¬ WindowInvalid src offset length ∧
        (length % 4 ≠ 0 ∨ (0 < length ∧ PadMisplaced c.source.textOf offset.toNat length.toNat))) := by
    intro src offset length hd
    rw [exec_next_iff hin, answerOf_decW hd, decodeReply_formatError_iff hd, windowRejected_zero hzero]
  refine ⟨hwindow, fun n hd => ?_, fun h => ?_,
    fun src h => next_encoder_ne_formatError src 0 0 .none (.inl h) c rest rfl,
    fun src mode h => next_encoder_ne_formatError src 0 0 mode (.inr (.inl h)) c rest rfl,
    fun src offset length mode h => next_encoder_ne_formatError src offset length mode (.inr (.inr h)) c rest rfl⟩
  · have hvalid : ¬ WindowInvalid (.present n) 0 n := mt windowInvalid_short_iff.1 (by simp)
    rw [exec_dec_eq_decW, hwindow _ _ _ hd, and_iff_right hvalid, Int.toNat_zero, Int.toNat_natCast]
    norm_cast
  · rw [exec_dec_eq_decW_shortLength, exec_next_iff hin] at h
    have hd : textDeclared .absent c.source := sourceDeclared_of_answerOf_ok h
    rw [answerOf_decW hd, decodeReply_formatError_iff hd] at h
    obtain ⟨hvalid, -⟩ := h
    exact hvalid trivial

/-- Settles O35: each error has exactly its causes, and an answer of the decoder unit that is no error is a success. -/
theorem errorPriority : Obligations.ErrorPriority := by
  intro s c rest src offset length hin hd hwf
  simp only [exec_next_iff hin, answerOf_decW hd, decodeReply_invalidArgument_iff, decodeReply_formatError_iff hd]
  refine ⟨id, fun hvalid => ⟨fun h4 => ⟨hvalid, .inl h4⟩, fun h4 h0 => ?_⟩⟩
  refine ⟨fun hpad => ⟨hvalid, .inr ⟨h0, .inl hpad⟩⟩, fun hpad => ?_⟩
  refine ⟨fun hdigit => ⟨hvalid, .inr ⟨h0, .inr hdigit⟩⟩, fun hdigit => ?_⟩
  obtain ⟨e, herror⟩ | hok := decodeReply_cases (cfg := s.cfg) (offset := offset) (length := length) hd hwf
  · cases e with
    | invalidArgument => exact absurd (decodeReply_invalidArgument_iff.1 herror) hvalid
    | formatError =>
      obtain ⟨-, hbad | ⟨-, hmisplaced | hnondigit⟩⟩ := (decodeReply_formatError_iff hd).1 herror
      · exact absurd h4 hbad
      · exact absurd hmisplaced hpad
      · exact absurd hnondigit hdigit
  · exact hok

end Sys2Proof.Machine

/-! ### The hazards family (70_reset_and_hazards.md): what stops a command (R164, R172) -/

namespace Sys2Proof.Machine

/-- A transaction needs a command at the head of the inputs. -/
theorem transact_noCommand {answer : Cfg → Source → Except Refusal Response} {s : State}
    (h : ∀ c rest, s.inputs ≠ .command c :: rest) : transact answer s = .refused .noCommand := by
  unfold transact
  split
  · rename_i c rest hin
    exact absurd hin (h c rest)
  · rfl

/-- The window of a declared source under valid operands has LENGTH elements. -/
theorem length_window_of_bytesDeclared {n : Nat} {source : Source} {offset length : Int}
    (hd : bytesDeclared (.present n) source) (hvalid : argsValid (.present n) offset length = true) :
    (window source.bytesOf offset length).length = length.toNat := by
  obtain ⟨hoffset, hlength, hfit⟩ := argsValid_present.1 hvalid
  obtain ⟨off, rfl⟩ := Int.eq_ofNat_of_zero_le hoffset
  obtain ⟨len, rfl⟩ := Int.eq_ofNat_of_zero_le hlength
  cases source with
  | bytes bs =>
    obtain rfl : bs.length = n := hd
    exact length_window (src := bs) (by omega)
  | absent => exact hd.elim
  | text cs => exact hd.elim

/-- The encoder unit answers a declared source, unless the text of its window is too long (R154). -/
theorem encodeReply_ok_or_tooLong {cfg : Cfg} {src : SrcOperand} {source : Source} (hd : bytesDeclared src source)
    (offset length : Int) (mode : LineBreakMode) :
    (∃ r, encodeReply cfg src source.bytesOf offset length mode = .ok r) ∨
      (encodeReply cfg src source.bytesOf offset length mode = .error .outputTooLong ∧
        (∃ n, src = .present n) ∧ maxLen < encodedLength cfg mode length.toNat) := by
  by_cases hinvalid : WindowInvalid src offset length
  · exact .inl ⟨_, encodeReply_invalidArgument_iff.2 hinvalid⟩
  have hvalid := argsValid_true_iff.2 hinvalid
  cases src with
  | absent => exact absurd trivial hinvalid
  | present n =>
    have hlen := length_applyMode (cfg := cfg) (w := window source.bytesOf offset length) (mode := mode)
    rw [length_window_of_bytesDeclared hd hvalid] at hlen
    obtain hfits | hlong := le_or_gt (encodedLength cfg mode length.toNat) maxLen
    · exact .inl ⟨_, encodeReply_ok_iff.2 (.inr ⟨hvalid, hlen.trans_le hfits, rfl⟩)⟩
    · exact .inr ⟨encodeReply_tooLong_iff.2 ⟨hvalid, hlong.trans_eq hlen.symm⟩, ⟨n, rfl⟩, hlong⟩

/-- Every command with a declared source is answered, unless it encodes a window whose text is too long. -/
theorem answerOf_ok_or_tooLong {i : Instr} {source : Source} (hwf : i.wf = true) (hd : sourceDeclared i source)
    (cfg : Cfg) :
    (∃ r, answerOf i cfg source = .ok r) ∨
      (answerOf i cfg source = .error .outputTooLong ∧
        ∃ n mode, encodes i = some (n, mode) ∧ maxLen < encodedLength cfg mode n) := by
  have hdecoder : ∀ {src offset length}, textDeclared src source → src.wf = true →
      ∃ r, decodeReply cfg src source.textOf offset length = .ok r := fun hd hwf =>
    (decodeReply_cases hd hwf).elim (fun ⟨_, h⟩ => ⟨_, h⟩) (fun ⟨_, h⟩ => ⟨_, h⟩)
  have hencoder : ∀ {src offset length mode}, bytesDeclared src source →
      (∀ n, src = .present n → encodes i = some (length.toNat, mode)) →
      (∃ r, encodeReply cfg src source.bytesOf offset length mode = .ok r) ∨
        (encodeReply cfg src source.bytesOf offset length mode = .error .outputTooLong ∧
          ∃ n mode, encodes i = some (n, mode) ∧ maxLen < encodedLength cfg mode n) := fun hd hencodes =>
    (encodeReply_ok_or_tooLong hd _ _ _).imp_right fun ⟨herror, ⟨n, hn⟩, hlong⟩ =>
      ⟨herror, _, _, hencodes n hn, hlong⟩
  cases i with
  | enc src =>
    rw [answerOf_enc hd]
    exact hencoder hd (by rintro n rfl; rfl)
  | encL src mode =>
    rw [answerOf_encL hd]
    exact hencoder hd (by rintro n rfl; rfl)
  | encWL src offset length mode =>
    rw [answerOf_encWL hd]
    exact hencoder hd (by rintro n rfl; rfl)
  | dec src =>
    rw [answerOf_dec hd]
    exact .inl (hdecoder hd hwf)
  | decW src offset length =>
    obtain ⟨hsrc, -, -⟩ := Instr.wf_decW.1 hwf
    rw [answerOf_decW hd]
    exact .inl (hdecoder hd hsrc)

/-! ### The hazards family (70_reset_and_hazards.md): commands handed over together (R172) -/

/-- Commands that `Step` answers make the transactions of the commands with their responses. -/
theorem filterMap_transactionOf {cfg : Cfg} {cs : List Command} {rs : List Response}
    (h : List.Forall₂ (fun c r => respond cfg c = some r) cs rs) :
    cs.filterMap (transactionOf cfg) = List.zipWith Transaction.mk cs rs := by
  induction h with
  | nil => rfl
  | cons hr _ ih => rw [List.filterMap_cons_some (transactionOf_some hr), ih, List.zipWith_cons_cons]

theorem isSome_respond_of_forall₂ {cfg : Cfg} {cs : List Command} {rs : List Response}
    (h : List.Forall₂ (fun c r => respond cfg c = some r) cs rs) : ∀ c ∈ cs, (respond cfg c).isSome := by
  induction h with
  | nil => exact List.forall_mem_nil _
  | cons hr _ ih => exact List.forall_mem_cons.2 ⟨Option.isSome_of_eq_some hr, ih⟩

/-! ### The hazards family (70_reset_and_hazards.md): unrecognised code units (R166)

The decoder reads a code unit in two ways only: whether it is `PAD`, and its `DecVal`. A replacement that keeps both
keeps the response. -/

/-- The replacement `f` of code units keeps everything the ZERO decoder reads of one. -/
structure KeepsReading (cfg : Cfg) (f : CodeUnit → CodeUnit) : Prop where
  pad_iff : ∀ u, f u = pad ↔ u = pad
  decVal_eq : ∀ u, decVal cfg (f u) = decVal cfg u

theorem window_map {α β : Type} (f : α → β) (src : List α) (offset length : Int) :
    window (src.map f) offset length = (window src offset length).map f := by
  simp only [window, slice, List.map_take, List.map_drop]

namespace KeepsReading

variable {cfg : Cfg} {f : CodeUnit → CodeUnit}

theorem getElem?_map_ne_pad_iff (h : KeepsReading cfg f) (w : List CodeUnit) (k : Nat) :
    (w.map f)[k]? ≠ some pad ↔ w[k]? ≠ some pad := by
  rw [List.getElem?_map]
  cases w[k]? with
  | none => simp
  | some u => simp [h.pad_iff]

theorem trailingPads_map (h : KeepsReading cfg f) (w : List CodeUnit) : trailingPads (w.map f) = trailingPads w := by
  simp only [trailingPads, List.length_map, h.getElem?_map_ne_pad_iff]

theorem pad_mem_digitPart_map_iff (h : KeepsReading cfg f) (w : List CodeUnit) :
    pad ∈ digitPart (w.map f) ↔ pad ∈ digitPart w := by
  rw [digitPart, h.trailingPads_map, List.length_map, ← List.map_take, ← digitPart]
  simp only [List.mem_map, h.pad_iff, exists_eq_right]

theorem quartetBytes_map (h : KeepsReading cfg f) (c0 c1 c2 c3 : CodeUnit) :
    quartetBytes cfg (f c0) (f c1) (f c2) (f c3) = quartetBytes cfg c0 c1 c2 c3 := by
  simp only [quartetBytes, h.decVal_eq]

theorem decodeQuartets_map (h : KeepsReading cfg f) (p : Nat) :
    ∀ w : List CodeUnit, decodeQuartets cfg p (w.map f) = decodeQuartets cfg p w
  | [] | [_] | [_, _] | [_, _, _] => rfl
  | [c0, c1, c2, c3] => congrArg (List.take (3 - p)) (h.quartetBytes_map c0 c1 c2 c3)
  | c0 :: c1 :: c2 :: c3 :: c4 :: rest =>
    congrArg₂ (· ++ ·) (h.quartetBytes_map c0 c1 c2 c3) (h.decodeQuartets_map p (c4 :: rest))

theorem decodeWindow_map (h : KeepsReading cfg f) (hzero : cfg.unknownPolicy = .zero) (w : List CodeUnit) :
    decodeWindow cfg (w.map f) = decodeWindow cfg w := by
  simp only [decodeWindow, h.pad_mem_digitPart_map_iff, h.trailingPads_map, h.decodeQuartets_map, hzero,
    reduceCtorEq, false_and, if_false]

/-- Under ZERO the decoder unit answers the replaced text as it answers the text, whatever the operands. -/
theorem decodeReply_map (h : KeepsReading cfg f) (hzero : cfg.unknownPolicy = .zero) (src : SrcOperand)
    (text : List CodeUnit) (offset length : Int) :
    decodeReply cfg src (text.map f) offset length = decodeReply cfg src text offset length := by
  simp only [decodeReply, decodeCore, window_map, h.decodeWindow_map hzero]

end KeepsReading

theorem decVal_letterA {cfg : Cfg} (h : cfg.SymbolsLegal) : decVal cfg 0x41 = 0 := by
  rw [← encRom_zero cfg, decVal_encRom h]

/-- The letter `A` for every code unit that is neither a digit nor `PAD` (R117, R166). -/
def letterAForUnrecognised (cfg : Cfg) (u : CodeUnit) : CodeUnit :=
  if isDigit cfg u = false ∧ u ≠ pad then 0x41 else u

theorem keepsReading_letterAForUnrecognised {cfg : Cfg} (h : cfg.SymbolsLegal) :
    KeepsReading cfg (letterAForUnrecognised cfg) where
  pad_iff u := by
    rw [letterAForUnrecognised]
    split
    · rename_i hu
      exact iff_of_false (by decide) hu.2
    · rfl
  decVal_eq u := by
    rw [letterAForUnrecognised]
    split
    · rename_i hu
      rw [decVal_letterA h, decVal_of_not_isDigit hu.1]
    · rfl

/-! ### The statements of the hazards family -/

/-- Settles O13: a run over commands that `Step` answers records the transaction of each. -/
theorem runAnswersEveryCommand : Obligations.RunAnswersEveryCommand := by
  intro s cs rs hin hanswers
  rw [run_commands_next_iff hin, filterMap_transactionOf hanswers]
  exact ⟨isSome_respond_of_forall₂ hanswers, rfl⟩

/-- Settles O15: a step on a defined command is its meaning, and that answers or refuses a text that is too long. -/
theorem definedCommandIsAnswered : Obligations.DefinedCommandIsAnswered := by
  intro s c rest i hin hdecode hd
  rw [step_command hin hdecode, exec_refused_iff hin]
  simp only [exec_next_iff hin]
  exact answerOf_ok_or_tooLong (wf_of_decode hdecode) hd s.cfg

/-- Settles O47: the letter `A` is no `PAD` and has value 0, as every code unit it replaces. -/
theorem unrecognisedDecodesAsLetterA : Obligations.UnrecognisedDecodesAsLetterA := by
  intro s s' c c' rest rest' text hcfg hzero hsymbols hin hin' hsource hsource'
  have hwindow : ∀ (offset length : Int) (r : Response),
      exec (.decW (.present text.length) offset length) s = .next (afterResponse s c rest r) ↔
        exec (.decW (.present text.length) offset length) s' = .next (afterResponse s' c' rest' r) := by
    intro offset length r
    have hreplaced : c'.source = .text (text.map (letterAForUnrecognised s.cfg)) := hsource'
    rw [exec_decW_iff hin hsource rfl, exec_decW_iff hin' hreplaced (List.length_map _), hcfg,
      (keepsReading_letterAForUnrecognised hsymbols).decodeReply_map hzero]
  refine ⟨fun r => ?_, hwindow⟩
  rw [exec_dec_eq_decW, exec_dec_eq_decW]
  exact hwindow 0 text.length r

/-- Settles O7: taking a reset changes the inputs only. -/
theorem resetInputHasNoEffect : Obligations.ResetInputHasNoEffect :=
  fun _ rest hin => step_next_iff.2 (.inr (.inl ⟨rest, hin, rfl⟩))

/-- Settles O16: every meaning looks for its command first, then at the source. -/
theorem undeclaredSourceIsRefused : Obligations.UndeclaredSourceIsRefused :=
  ⟨fun _ _ _ _ hin hnot => (exec_refused_iff hin).2 (answerOf_mismatch hnot),
    fun i s hnone => (exec_eq_transact i s).trans (transact_noCommand hnone)⟩

/-- Settles O51: the 80 characters of the body and one break of two are no whole number of quartets. -/
theorem wrappedTextDoesNotDecode : Obligations.WrappedTextDoesNotDecode := by
  intro s s' c c' rest rest' hcfg _ hin hin' hsource
  have hbytes : (List.replicate 58 (0 : Byte)).length = 58 := List.length_replicate
  have hencoded : encodedLength s.cfg .insertEvery76 58 = 82 := by rw [hcfg]; decide
  have htext : (windowText s.cfg (List.replicate 58 0) 0 58 .insertEvery76).length = 82 :=
    (length_windowText (by rw [hbytes]) _).trans hencoded
  have hexec := exec_encL_whole (mode := .insertEvery76) hin hsource (by rw [hbytes, hencoded]; decide)
  rw [hbytes] at hexec
  refine ⟨_, hexec, htext, fun hsource' => ?_⟩
  obtain ⟨hfails, -⟩ := lengthNotMultipleOfFourFails s' c' rest' _ hin' hsource'
  rw [htext] at hfails
  exact hfails (by decide)

end Sys2Proof.Machine
